-- ==== Sys2Proof/Word.lean ====
section
/-! DEFINITION. The word types of the machine (spec 00_scope R5, R13): every value is unsigned. -/

namespace Sys2Proof

/-- A V register, a timer or a memory byte (R5 `VWIDTH`, `TWIDTH`; 20_memory R50). -/
abbrev Byte := BitVec 8

/-- I, PC, SP, a stack entry or an opcode word (R5 `IWIDTH`, `PCWIDTH`, `SPWIDTH`, `ILEN`). -/
abbrev Word := BitVec 16

/-- The 12-bit immediate `nnn` (30_encoding R71). -/
abbrev Addr12 := BitVec 12

/-- The number of a V register: field x or y (30_encoding R73). -/
abbrev Reg := Fin 16

/-- The number of a key, 0x0 to 0xF (10_state R30). -/
abbrev Key := Fin 16

end Sys2Proof
end

