-- ==== Sys2Proof/Config.lean ====
section
/-! DEFINITION. What the configuration is made of (spec 00_scope R5 to R11): the fixed sizes, the TYPE of the
open parameters, and the free value of the random source. The VALUES the spec gives the open parameters stand in
Sys2Proof/Machine/Params.lean (`params`), one definition that the whole machine reads. -/

namespace Sys2Proof

/-- `DRW_HWRAP` (00_scope R9): where a sprite pixel past column 63 goes. -/
inductive HWrap
  /-- at the left edge of the row below: the flat index is not reduced -/
  | nextRow
  /-- at the left edge of its own row -/
  | sameRow
deriving DecidableEq, Repr

/-- The open parameters (00_scope R6 to R11; 92_eei_decisions, "Parameters left open"). -/
structure Config where
  /-- `MEM_SIZE` (R6) -/
  memSize : Nat
  /-- `FONT` (R7), glyph of digit d at bytes 5·d to 5·d+4 -/
  font : List Byte
  /-- `TIMER_PER_STEP` (R8) -/
  timerPerStep : Bool
  /-- `DRW_HWRAP` (R9) -/
  drwHWrap : HWrap
  /-- `KEY_SELECT` (R10): of a non-empty set of pressed keys, given as the latch, one member -/
  keySelect : BitVec 16 → Key
  /-- `HAS_EXIT` (R11) -/
  hasExit : Bool

namespace Config

/-- The byte the random source answers at its n-th draw (60_exceptions R186). A FREE VALUE: it has no body, so
nothing can be proved about it, and a claim holds for every sequence of random bytes (log 8). -/
opaque randomByte : Nat → Byte

/-- `PROG_BASE` (R5): where the program is loaded, and PC after Reset. -/
def progBase : Nat := 0x200
/-- `FONT_BASE` (R5). -/
def fontBase : Nat := 0
/-- `FONT_LEN` (R5). -/
def fontLen : Nat := 80
/-- `GLYPH_BYTES` (R5). -/
def glyphBytes : Nat := 5
/-- `STACK_DEPTH` (R5). -/
def stackDepth : Nat := 16
/-- `FB_W` (R5). -/
def fbWidth : Nat := 64
/-- `FB_H` (R5). -/
def fbHeight : Nat := 32
/-- `FB_W`·`FB_H` pixels, indices 0 to 2047 (10_state R29). -/
def fbPixels : Nat := fbWidth * fbHeight

end Config
end Sys2Proof
end

