-- ==== Sys2Proof/Machine/Params.lean ====
section
/-! DEFINITION. The values the spec gives the open parameters (spec 00_scope R6 to R11; 70_reset_and_hazards R201 for
the font bytes). Each is the spec's default for a point its source leaves open (log 2 to log 7). -/

namespace Sys2Proof

/-- The 80 font bytes of 70_reset_and_hazards R201, glyphs 0 to F (log 3). -/
def fontTable : List Byte :=
  [0xF0, 0x90, 0x90, 0x90, 0xF0] ++ [0x20, 0x60, 0x20, 0x20, 0x70] ++
  [0xF0, 0x10, 0xF0, 0x80, 0xF0] ++ [0xF0, 0x10, 0xF0, 0x10, 0xF0] ++
  [0x90, 0x90, 0xF0, 0x10, 0x10] ++ [0xF0, 0x80, 0xF0, 0x10, 0xF0] ++
  [0xF0, 0x80, 0xF0, 0x90, 0xF0] ++ [0xF0, 0x10, 0x20, 0x40, 0x40] ++
  [0xF0, 0x90, 0xF0, 0x90, 0xF0] ++ [0xF0, 0x90, 0xF0, 0x10, 0xF0] ++
  [0xF0, 0x90, 0xF0, 0x90, 0x90] ++ [0xE0, 0x90, 0xE0, 0x90, 0xE0] ++
  [0xF0, 0x80, 0x80, 0x80, 0xF0] ++ [0xE0, 0x90, 0x90, 0x90, 0xE0] ++
  [0xF0, 0x80, 0xF0, 0x80, 0xF0] ++ [0xF0, 0x80, 0xF0, 0x80, 0x80]

/-- `KEY_SELECT`, the spec's value: the lowest index of the pressed keys (00_scope R10, D17; log 6). The rule gives
it no value on the empty set and Fx0A never asks for one. -/
def lowestKey (latch : BitVec 16) : Key :=
  ((List.finRange 16).find? fun k => latch.getLsbD k.val).getD 0

/-- The spec's values of the open parameters (00_scope R6 to R11). -/
abbrev params : Config where
  memSize := 4095
  font := fontTable
  timerPerStep := false
  drwHWrap := .nextRow
  keySelect := lowestKey
  hasExit := true

/-- `ROM_MAX` = `MEM_SIZE` − `PROG_BASE`, 3583 bytes (00_scope R6, 70_reset_and_hazards R202). -/
def romMax : Nat := params.memSize - Config.progBase

end Sys2Proof
end

