-- ==== Sys2Proof/Syntax.lean ====
section
/-! DEFINITION. The instructions, one constructor per row of spec/opcode_table.json, in its order (spec 30_encoding
R74), with the fields of its format (R71, R72) as operands. A field that a row has and ignores is kept (R82), so
that an instruction determines its word. -/

namespace Sys2Proof

/-- The 36 instructions (30_encoding R74, R86). -/
inductive Instr
  /-- 00E0 CLS (R150) -/
  | cls
  /-- 00EE RET (R101) -/
  | ret
  /-- 00FD EXIT (R102) -/
  | exit
  /-- 0nnn SYS addr (R100); nnn is ignored -/
  | sys (nnn : Addr12)
  /-- 1nnn JP addr (R103) -/
  | jp (nnn : Addr12)
  /-- 2nnn CALL addr (R104) -/
  | call (nnn : Addr12)
  /-- 3xkk SE Vx, byte (R105) -/
  | seByte (x : Reg) (kk : Byte)
  /-- 4xkk SNE Vx, byte (R106) -/
  | sneByte (x : Reg) (kk : Byte)
  /-- 5xy0 SE Vx, Vy (R107) -/
  | seReg (x y : Reg)
  /-- 6xkk LD Vx, byte (R120) -/
  | ldByte (x : Reg) (kk : Byte)
  /-- 7xkk ADD Vx, byte (R121) -/
  | addByte (x : Reg) (kk : Byte)
  /-- 8xy0 LD Vx, Vy (R122) -/
  | ldReg (x y : Reg)
  /-- 8xy1 OR Vx, Vy (R123) -/
  | orReg (x y : Reg)
  /-- 8xy2 AND Vx, Vy (R124) -/
  | andReg (x y : Reg)
  /-- 8xy3 XOR Vx, Vy (R125) -/
  | xorReg (x y : Reg)
  /-- 8xy4 ADD Vx, Vy (R126) -/
  | addReg (x y : Reg)
  /-- 8xy5 SUB Vx, Vy (R127) -/
  | subReg (x y : Reg)
  /-- 8xy6 SHR Vx (R128); y is ignored -/
  | shr (x y : Reg)
  /-- 8xy7 SUBN Vx, Vy (R129) -/
  | subnReg (x y : Reg)
  /-- 8xyE SHL Vx (R130); y is ignored -/
  | shl (x y : Reg)
  /-- 9xy0 SNE Vx, Vy (R108) -/
  | sneReg (x y : Reg)
  /-- Annn LD I, addr (R140) -/
  | ldI (nnn : Addr12)
  /-- Bnnn JP V0, addr (R109) -/
  | jpV0 (nnn : Addr12)
  /-- Cxkk RND Vx, byte (R131) -/
  | rnd (x : Reg) (kk : Byte)
  /-- Dxyn DRW Vx, Vy, nibble (R151); n counts sprite rows, 0 to 15 -/
  | drw (x y : Reg) (n : Fin 16)
  /-- Ex9E SKP Vx (R160) -/
  | skp (x : Reg)
  /-- ExA1 SKNP Vx (R161) -/
  | sknp (x : Reg)
  /-- Fx07 LD Vx, DT (R162) -/
  | ldVxDT (x : Reg)
  /-- Fx0A LD Vx, K (R163) -/
  | ldVxK (x : Reg)
  /-- Fx15 LD DT, Vx (R164) -/
  | ldDTVx (x : Reg)
  /-- Fx18 LD ST, Vx (R165) -/
  | ldSTVx (x : Reg)
  /-- Fx1E ADD I, Vx (R141) -/
  | addIVx (x : Reg)
  /-- Fx29 LD F, Vx (R142) -/
  | ldFVx (x : Reg)
  /-- Fx33 LD B, Vx (R143) -/
  | ldBVx (x : Reg)
  /-- Fx55 LD [I], Vx (R144); x + 1 registers are stored -/
  | ldMemVx (x : Reg)
  /-- Fx65 LD Vx, [I] (R145); x + 1 registers are loaded -/
  | ldVxMem (x : Reg)
deriving DecidableEq, Repr

end Sys2Proof
end

