-- ==== Sys2Proof/WellFormed.lean ====
section
/-! DEFINITION. Which instructions have a word of their own. The operand types bound every field (spec 30_encoding
R71), so the only checks are those of family 0 (R75, R84): SYS at an address whose word is CLS, RET or EXIT, and EXIT
on a machine that has none (R11). -/

namespace Sys2Proof

/-- Well-formed on a machine whose `HAS_EXIT` is `hasExit`. -/
def Instr.wfWith (hasExit : Bool) : Instr → Bool
  | .sys nnn => nnn != 0x0E0#12 && nnn != 0x0EE#12 && !(hasExit && nnn == 0x0FD#12)
  | .exit => hasExit
  | .cls | .ret => true
  | .jp _ | .call _ | .ldI _ | .jpV0 _ => true
  | .seByte _ _ | .sneByte _ _ | .ldByte _ _ | .addByte _ _ | .rnd _ _ => true
  | .seReg _ _ | .sneReg _ _ | .ldReg _ _ | .orReg _ _ | .andReg _ _ | .xorReg _ _ => true
  | .addReg _ _ | .subReg _ _ | .shr _ _ | .subnReg _ _ | .shl _ _ => true
  | .drw _ _ _ => true
  | .skp _ | .sknp _ | .ldVxDT _ | .ldVxK _ | .ldDTVx _ | .ldSTVx _ => true
  | .addIVx _ | .ldFVx _ | .ldBVx _ | .ldMemVx _ | .ldVxMem _ => true

/-- Well-formed on this machine. -/
def Instr.wf (i : Instr) : Bool := i.wfWith params.hasExit

end Sys2Proof
end

