-- ==== Sys2Proof/Decode.lean ====
section
/-! DEFINITION. The decoder, a total function of the word (spec 30_encoding R74, R86), its refusals by name (R80),
and after it the encoder (R72). -/

namespace Sys2Proof

/-! ### The fields of an opcode word (00_scope R13, 30_encoding R71) -/

/-- `p = opcode>>12`, the family. -/
def fieldP (op : Word) : Nat := op.toNat / 4096
/-- `x = (opcode>>8)&0xF`. -/
def fieldX (op : Word) : Reg := ⟨op.toNat / 256 % 16, Nat.mod_lt _ (by decide)⟩
/-- `y = (opcode>>4)&0xF`. -/
def fieldY (op : Word) : Reg := ⟨op.toNat / 16 % 16, Nat.mod_lt _ (by decide)⟩
/-- `n = opcode&0xF`. -/
def fieldN (op : Word) : Fin 16 := ⟨op.toNat % 16, Nat.mod_lt _ (by decide)⟩
/-- `kk = opcode&0xFF`. -/
def fieldKK (op : Word) : Byte := BitVec.ofNat 8 op.toNat
/-- `nnn = opcode&0xFFF`. -/
def fieldNNN (op : Word) : Addr12 := BitVec.ofNat 12 op.toNat

/-! ### The opcode map (30_encoding R74) -/

/-- One row: a word selects it when `word & mask = value`; `build` makes the instruction from the word. -/
structure OpcodeRow where
  pattern : String
  value : Word
  mask : Word
  build : Word → Instr

/-- The row's test, `op & mask == match` (R74). -/
def OpcodeRow.selects (r : OpcodeRow) (op : Word) : Bool := op &&& r.mask == r.value

/-- Rows 1 to 4, family 0: the three FIXED words before the catch-all SYS (R75); without `HAS_EXIT` the 00FD row is
removed (R74, R11). -/
def rowsFamily0 (hasExit : Bool) : List OpcodeRow :=
  [⟨"00E0", 0x00E0, 0xFFFF, fun _ => .cls⟩,
   ⟨"00EE", 0x00EE, 0xFFFF, fun _ => .ret⟩] ++
  (if hasExit then [⟨"00FD", 0x00FD, 0xFFFF, fun _ => .exit⟩] else []) ++
  [⟨"0nnn", 0x0000, 0xF000, fun op => .sys (fieldNNN op)⟩]

/-- Rows 5 to 11. -/
def rowsFamily1to7 : List OpcodeRow :=
  [⟨"1nnn", 0x1000, 0xF000, fun op => .jp (fieldNNN op)⟩,
   ⟨"2nnn", 0x2000, 0xF000, fun op => .call (fieldNNN op)⟩,
   ⟨"3xkk", 0x3000, 0xF000, fun op => .seByte (fieldX op) (fieldKK op)⟩,
   ⟨"4xkk", 0x4000, 0xF000, fun op => .sneByte (fieldX op) (fieldKK op)⟩,
   ⟨"5xy0", 0x5000, 0xF00F, fun op => .seReg (fieldX op) (fieldY op)⟩,
   ⟨"6xkk", 0x6000, 0xF000, fun op => .ldByte (fieldX op) (fieldKK op)⟩,
   ⟨"7xkk", 0x7000, 0xF000, fun op => .addByte (fieldX op) (fieldKK op)⟩]

/-- Rows 12 to 20, sub-dispatched on n (R76). -/
def rowsFamily8 : List OpcodeRow :=
  [⟨"8xy0", 0x8000, 0xF00F, fun op => .ldReg (fieldX op) (fieldY op)⟩,
   ⟨"8xy1", 0x8001, 0xF00F, fun op => .orReg (fieldX op) (fieldY op)⟩,
   ⟨"8xy2", 0x8002, 0xF00F, fun op => .andReg (fieldX op) (fieldY op)⟩,
   ⟨"8xy3", 0x8003, 0xF00F, fun op => .xorReg (fieldX op) (fieldY op)⟩,
   ⟨"8xy4", 0x8004, 0xF00F, fun op => .addReg (fieldX op) (fieldY op)⟩,
   ⟨"8xy5", 0x8005, 0xF00F, fun op => .subReg (fieldX op) (fieldY op)⟩,
   ⟨"8xy6", 0x8006, 0xF00F, fun op => .shr (fieldX op) (fieldY op)⟩,
   ⟨"8xy7", 0x8007, 0xF00F, fun op => .subnReg (fieldX op) (fieldY op)⟩,
   ⟨"8xyE", 0x800E, 0xF00F, fun op => .shl (fieldX op) (fieldY op)⟩]

/-- Rows 21 to 25. -/
def rowsFamily9toD : List OpcodeRow :=
  [⟨"9xy0", 0x9000, 0xF00F, fun op => .sneReg (fieldX op) (fieldY op)⟩,
   ⟨"Annn", 0xA000, 0xF000, fun op => .ldI (fieldNNN op)⟩,
   ⟨"Bnnn", 0xB000, 0xF000, fun op => .jpV0 (fieldNNN op)⟩,
   ⟨"Cxkk", 0xC000, 0xF000, fun op => .rnd (fieldX op) (fieldKK op)⟩,
   ⟨"Dxyn", 0xD000, 0xF000, fun op => .drw (fieldX op) (fieldY op) (fieldN op)⟩]

/-- Rows 26 and 27, sub-dispatched on kk (R77). -/
def rowsFamilyE : List OpcodeRow :=
  [⟨"Ex9E", 0xE09E, 0xF0FF, fun op => .skp (fieldX op)⟩,
   ⟨"ExA1", 0xE0A1, 0xF0FF, fun op => .sknp (fieldX op)⟩]

/-- Rows 28 to 36, sub-dispatched on kk (R78). -/
def rowsFamilyF : List OpcodeRow :=
  [⟨"Fx07", 0xF007, 0xF0FF, fun op => .ldVxDT (fieldX op)⟩,
   ⟨"Fx0A", 0xF00A, 0xF0FF, fun op => .ldVxK (fieldX op)⟩,
   ⟨"Fx15", 0xF015, 0xF0FF, fun op => .ldDTVx (fieldX op)⟩,
   ⟨"Fx18", 0xF018, 0xF0FF, fun op => .ldSTVx (fieldX op)⟩,
   ⟨"Fx1E", 0xF01E, 0xF0FF, fun op => .addIVx (fieldX op)⟩,
   ⟨"Fx29", 0xF029, 0xF0FF, fun op => .ldFVx (fieldX op)⟩,
   ⟨"Fx33", 0xF033, 0xF0FF, fun op => .ldBVx (fieldX op)⟩,
   ⟨"Fx55", 0xF055, 0xF0FF, fun op => .ldMemVx (fieldX op)⟩,
   ⟨"Fx65", 0xF065, 0xF0FF, fun op => .ldVxMem (fieldX op)⟩]

/-- The opcode map in the order of R74. -/
def opcodeMap (hasExit : Bool) : List OpcodeRow :=
  rowsFamily0 hasExit ++ rowsFamily1to7 ++ rowsFamily8 ++ rowsFamily9toD ++ rowsFamilyE ++ rowsFamilyF

/-! ### The decoder -/

/-- Why bytes are not an instruction: one name per line of the table of illegal words (30_encoding R80), and one for
fewer than two bytes (R70). -/
inductive DecodeError
  /-- fewer than the two bytes of a word are left (R70) -/
  | truncated
  /-- 5xyn with n ≠ 0 (R79) -/
  | illegal5 (op : Word)
  /-- 8xyn with n in 8, 9, A, B, C, D, F (R76) -/
  | illegal8 (op : Word)
  /-- 9xyn with n ≠ 0 (R79) -/
  | illegal9 (op : Word)
  /-- Exkk with kk neither 9E nor A1 (R77) -/
  | illegalE (op : Word)
  /-- Fxkk with kk none of the nine of R78 -/
  | illegalF (op : Word)
deriving DecidableEq, Repr

/-- The name of the refusal of a word that selects no row: by its family (R80). -/
def illegalWord (op : Word) : DecodeError :=
  if fieldP op = 5 then .illegal5 op
  else if fieldP op = 8 then .illegal8 op
  else if fieldP op = 9 then .illegal9 op
  else if fieldP op = 0xE then .illegalE op
  else .illegalF op

/-- Decoding with `HAS_EXIT` given: the first row of the map that the word selects (R74). -/
def decodeWith (hasExit : Bool) (op : Word) : Except DecodeError Instr :=
  match (opcodeMap hasExit).find? (fun r => r.selects op) with
  | some r => .ok (r.build op)
  | none => .error (illegalWord op)

/-- The decoder of this machine (R74, R93). -/
def decode (op : Word) : Except DecodeError Instr := decodeWith params.hasExit op

/-- Big-endian: the byte at the lower address is the high byte (20_memory R53). -/
def wordOfBytes (b0 b1 : Byte) : Word := b0 ++ b1

/-- Decoding from bytes, the first at the lowest address: the instruction and the bytes after it (R70). -/
def decodeBytes : List Byte → Except DecodeError (Instr × List Byte)
  | b0 :: b1 :: rest =>
    match decode (wordOfBytes b0 b1) with
    | .ok i => .ok (i, rest)
    | .error e => .error e
  | [_] => .error .truncated
  | [] => .error .truncated

/-- The two bytes of a word as memory holds them, high byte first (R70, 20_memory R53). -/
def bytesOfWord (op : Word) : List Byte := [BitVec.ofNat 8 (op.toNat / 256), BitVec.ofNat 8 op.toNat]

/-- The instruction the decoder reads from a word numbered as spec/opcode_table.json numbers it: bit 0 is the least
significant bit of the 16-bit word, whose high byte is stored first. Every row has 16 bits, so `nbits` is always 16;
the bits above it are 0. -/
def decodeTableWord (nbits w : Nat) : Option Instr :=
  match decodeBytes (bytesOfWord (BitVec.ofNat 16 (w % 2 ^ nbits))) with
  | .ok (i, _) => some i
  | .error _ => none

/-! ### The encoder: the six formats of 30_encoding R72, bit 15 on the left -/

/-- Format NNN: `p ++ nnn`. -/
def formatNNN (p : Nat) (nnn : Addr12) : Word := BitVec.ofNat 16 (4096 * p + nnn.toNat)
/-- Format XKK: `p ++ x ++ kk`. -/
def formatXKK (p : Nat) (x : Reg) (kk : Byte) : Word := BitVec.ofNat 16 (4096 * p + 256 * x.val + kk.toNat)
/-- Formats XY and XYN: `p ++ x ++ y ++ n`, with n the fixed `sub` in format XY. -/
def formatXYN (p : Nat) (x y : Reg) (n : Nat) : Word :=
  BitVec.ofNat 16 (4096 * p + 256 * x.val + 16 * y.val + n)
/-- Format X: `p ++ x ++ sub8`. -/
def formatX (p : Nat) (x : Reg) (sub8 : Nat) : Word := BitVec.ofNat 16 (4096 * p + 256 * x.val + sub8)

/-- The word of an instruction (30_encoding R72, pattern column of R74). -/
def encode : Instr → Word
  | .cls => 0x00E0
  | .ret => 0x00EE
  | .exit => 0x00FD
  | .sys nnn => formatNNN 0x0 nnn
  | .jp nnn => formatNNN 0x1 nnn
  | .call nnn => formatNNN 0x2 nnn
  | .seByte x kk => formatXKK 0x3 x kk
  | .sneByte x kk => formatXKK 0x4 x kk
  | .seReg x y => formatXYN 0x5 x y 0x0
  | .ldByte x kk => formatXKK 0x6 x kk
  | .addByte x kk => formatXKK 0x7 x kk
  | .ldReg x y => formatXYN 0x8 x y 0x0
  | .orReg x y => formatXYN 0x8 x y 0x1
  | .andReg x y => formatXYN 0x8 x y 0x2
  | .xorReg x y => formatXYN 0x8 x y 0x3
  | .addReg x y => formatXYN 0x8 x y 0x4
  | .subReg x y => formatXYN 0x8 x y 0x5
  | .shr x y => formatXYN 0x8 x y 0x6
  | .subnReg x y => formatXYN 0x8 x y 0x7
  | .shl x y => formatXYN 0x8 x y 0xE
  | .sneReg x y => formatXYN 0x9 x y 0x0
  | .ldI nnn => formatNNN 0xA nnn
  | .jpV0 nnn => formatNNN 0xB nnn
  | .rnd x kk => formatXKK 0xC x kk
  | .drw x y n => formatXYN 0xD x y n.val
  | .skp x => formatX 0xE x 0x9E
  | .sknp x => formatX 0xE x 0xA1
  | .ldVxDT x => formatX 0xF x 0x07
  | .ldVxK x => formatX 0xF x 0x0A
  | .ldDTVx x => formatX 0xF x 0x15
  | .ldSTVx x => formatX 0xF x 0x18
  | .addIVx x => formatX 0xF x 0x1E
  | .ldFVx x => formatX 0xF x 0x29
  | .ldBVx x => formatX 0xF x 0x33
  | .ldMemVx x => formatX 0xF x 0x55
  | .ldVxMem x => formatX 0xF x 0x65

/-- The bytes of an instruction in memory (R70). -/
def encodeBytes (i : Instr) : List Byte := bytesOfWord (encode i)

end Sys2Proof
end

