-- ==== Sys2Proof/Machine/State.lean ====
section
/-! DEFINITION. The state of the machine, all of it (spec 10_state, R20 to R34), the run state with the fault record,
the ways a step of the MODEL can stop, and the state after Reset (R33, 70_reset_and_hazards R200). -/

namespace Sys2Proof.Machine

/-- The four runtime faults, "exactly four" (60_exceptions R170). -/
inductive FaultKind
  /-- decode of an illegal word (R171) -/
  | unknownOpcode
  /-- CALL with the stack full (R172) -/
  | stackOverflow
  /-- RET with the stack empty (R173) -/
  | stackUnderflow
  /-- an access at or above `MEM_SIZE`: fetch, Dxyn, Fx33, Fx55, Fx65 (R174) -/
  | memoryOutOfBounds
deriving DecidableEq, Repr

/-- `run`, the core's only status register (10_state R31). -/
inductive RunState
  | running
  /-- EXIT ran (41_control_flow R102) -/
  | halted
  /-- a fault: its kind, the address of the failing instruction, and its word, `none` for a fetch fault -/
  | faulted (kind : FaultKind) (addr : Word) (opcode : Option Word)
deriving DecidableEq, Repr

/-- Memory (10_state R28): the bytes that differ from the reset contents, by strictly rising address
(`Memory.wf`, log 10). -/
abbrev Memory := List Host.Cell

/-- The display buffer (10_state R29): 32 rows of 64 pixels; the pixel of column c in row r is bit c of row r, and
its flat index is 64·r + c (log 17). -/
abbrev FrameBuffer := Vector (BitVec 64) 32

/-- The machine (10_state, head of the file and R32). -/
structure State where
  /-- V[0..15]; V[15] is VF (R20, R21) -/
  v : Vector Byte 16
  /-- I (R22) -/
  i : Word
  /-- PC (R23) -/
  pc : Word
  /-- SP, the number of return addresses on the call stack (R24) -/
  sp : Word
  /-- stack[0..15] (R25) -/
  stack : Vector Word 16
  /-- DT (R26) -/
  dt : Byte
  /-- ST (R27) -/
  st : Byte
  /-- mem (R28) -/
  mem : Memory
  /-- FB (R29) -/
  fb : FrameBuffer
  /-- key[0..15], bit k is key k (R30) -/
  keys : BitVec 16
  /-- run (R31) -/
  run : RunState
  /-- the model's own field, not the spec's: how many random bytes have been drawn (log 8) -/
  rndDraws : Nat
deriving DecidableEq, Repr

/-- Where the MODEL stops without a next state. The four faults of the spec are not here: entering one is a next
state whose `run` is FAULTED (60_exceptions R177, log 1). -/
inductive Fault
  /-- Raised by RET in a state whose SP is above 16, whose stack[SP − 1] does not exist (10_state R24: "values above 16
  are unreachable"). SAFE: no run from reset reaches such a state (log 11). -/
  | stackPointerOutOfRange
deriving DecidableEq, Repr

/-- Where the model declines to give a meaning. -/
inductive Refusal
  /-- Raised by an arm of `exec` whose instruction has no meaning yet. SAFE. No arm raises it. -/
  | notModelled (mnemonic : String)
  /-- Raised by the event LoadROM with more than `ROM_MAX` bytes: the loader's RomTooLarge (60_exceptions R175,
  70_reset_and_hazards R202, U15). SAFE: the spec gives such a launch no meaning. -/
  | romTooLarge
  /-- Raised by the event LoadROM in a state other than one just after Reset: the host breaks its duty
  (70_reset_and_hazards R212, U38). SAFE: the spec gives it no meaning (log 13). -/
  | loadRomNotAfterReset
deriving DecidableEq, Repr

/-- The state after Reset (10_state R33, 70_reset_and_hazards R200); memory lists nothing, which reads as the font
and zeros (R201). `rndDraws` is the model's own field and its 0 is a DESIGN CHOICE (log 8). -/
def State.reset : State where
  v := Vector.replicate 16 0#8
  i := 0#16
  pc := BitVec.ofNat 16 Config.progBase
  sp := 0#16
  stack := Vector.replicate 16 0#16
  dt := 0#8
  st := 0#8
  mem := []
  fb := Vector.replicate 32 0#64
  keys := 0#16
  run := .running
  rndDraws := 0

end Sys2Proof.Machine
end

