-- ==== Sys2Proof/Machine/Operands.lean ====
section
/-! DEFINITION. The operand forms (spec 30_encoding R73; 00_scope R13, R14): registers, immediates, the key selector,
the glyph address, the BCD digits. -/

namespace Sys2Proof.Machine

/-- `trunc8(n)`: n mod 256 (00_scope R13). -/
def trunc8 (n : Nat) : Byte := BitVec.ofNat 8 n

/-- `trunc16(n)`: n mod 65536 (00_scope R13). -/
def trunc16 (n : Nat) : Word := BitVec.ofNat 16 n

/-- `zext_16(v)`: high bits zero (00_scope R14). -/
def zext16 {w : Nat} (v : BitVec w) : Word := BitVec.ofNat 16 v.toNat

/-- VF is V[15] (10_state R21). -/
def vf : Reg := 15

/-- Read of `V[x]` (00_scope R14). -/
def State.getV (s : State) (x : Reg) : Byte := s.v[x.val]

/-- The key an operand value selects: its low 4 bits (45_keys_timers R160, R161, D16). -/
def keyOf (b : Byte) : Key := ⟨b.toNat % 16, Nat.mod_lt _ (by decide)⟩

/-- `key[k]` (10_state R30). -/
def State.keyDown (s : State) (k : Key) : Bool := s.keys.getLsbD k.val

/-- `V[x]`×5, exact and unmasked (43_index_memory R142, D28). -/
def glyphAddress (b : Byte) : Word := trunc16 (b.toNat * Config.glyphBytes)

/-- Hundreds, tens, ones of a byte, in the order they are stored (43_index_memory R143). -/
def bcdDigits (b : Byte) : List Byte :=
  [trunc8 (b.toNat / 100), trunc8 (b.toNat / 10 % 10), trunc8 (b.toNat % 10)]

/-- V[0] to V[x], x + 1 registers, ascending (43_index_memory R144). -/
def State.regsUpTo (s : State) (x : Reg) : List Byte := s.v.toList.take (x.val + 1)

end Sys2Proof.Machine
end

