-- ==== Sys2Proof/Machine/Flags.lean ====
section
/-! DEFINITION. The values VF receives as a flag (spec 10_state R21). There is no other flag. -/

namespace Sys2Proof.Machine

/-- A flag is the byte 1 or 0. -/
def flag (b : Bool) : Byte := if b then 1#8 else 0#8

/-- Carry of an 8-bit addition: 1 when the exact sum exceeds 255 (42_load_alu R126). -/
def carryFlag (a b : Byte) : Byte := flag (decide (a.toNat + b.toNat > 255))

/-- NOT borrow of a − b: 1 when a ≥ b (42_load_alu R127, R129). -/
def notBorrowFlag (a b : Byte) : Byte := flag (decide (a.toNat ≥ b.toNat))

/-- The bit a right shift by one shifts out: bit 0 (42_load_alu R128). -/
def shiftOutRight (a : Byte) : Byte := trunc8 (a.toNat % 2)

/-- The bit a left shift by one shifts out: bit 7 (42_load_alu R130). -/
def shiftOutLeft (a : Byte) : Byte := trunc8 (a.toNat / 128 % 2)

end Sys2Proof.Machine
end

