-- ==== Sys2Proof/Machine/Memory.lean ====
section
/-! DEFINITION. The memory array (spec 10_state R28, 20_memory R50 to R59): what an unlisted address reads as, reading
and writing bytes, and the canonical form. -/

namespace Sys2Proof.Machine

/-- What an address that is not listed reads as: the contents Reset leaves, FONT at `FONT_BASE` and 0 everywhere else
(10_state R33, 70_reset_and_hazards R200; log 10). -/
def resetByte (a : Nat) : Byte :=
  if Config.fontBase ≤ a ∧ a < Config.fontBase + Config.fontLen then
    params.font.getD (a - Config.fontBase) 0
  else 0

/-- mem[a]. -/
def Memory.read : Memory → Nat → Byte
  | [], a => resetByte a
  | (b, w) :: m, a => if a = b then w else Memory.read m a

/-- mem[a] <- v, keeping the canonical form: an entry that would say what an unlisted address reads as is left out. -/
def Memory.write : Memory → Nat → Byte → Memory
  | [], a, v => if v = resetByte a then [] else [(a, v)]
  | (b, w) :: m, a, v =>
    if a < b then (if v = resetByte a then (b, w) :: m else (a, v) :: (b, w) :: m)
    else if a = b then (if v = resetByte a then m else (a, v) :: m)
    else (b, w) :: Memory.write m a v

/-- mem[a + k] <- bytes[k], ascending (20_memory R52, R54). -/
def Memory.writeAll : Memory → Nat → List Byte → Memory
  | m, _, [] => m
  | m, a, v :: vs => Memory.writeAll (m.write a v) (a + 1) vs

/-- mem[a], mem[a+1], ..., n bytes, lowest address first (20_memory R52). -/
def Memory.readAll (m : Memory) (a : Nat) : Nat → List Byte
  | 0 => []
  | n + 1 => m.read a :: Memory.readAll m (a + 1) n

/-- The canonical form: strictly rising addresses that exist (20_memory R51), no entry equal to what its address reads
as unlisted. -/
abbrev Memory.wf (m : Memory) : Prop :=
  m.Pairwise (fun c d => c.1 < d.1) ∧ ∀ c ∈ m, c.1 < params.memSize ∧ c.2 ≠ resetByte c.1

/-- The bounds check of an access of n bytes at addr, on unbounded integers: it raises when addr + n − 1 ≥ `MEM_SIZE`
(20_memory R51, R52). An access of no byte checks nothing (44_display R151, n = 0). -/
def inBounds (addr n : Nat) : Bool := n == 0 || decide (addr + n - 1 < params.memSize)

end Sys2Proof.Machine
end

