-- ==== Sys2Proof/Machine/Ops.lean ====
section
/-! DEFINITION. The named operations over registers and memory that the instructions share, entering a fault as ONE
operation, and the pieces of the Step (spec 00_scope R14, 20_memory R52, 40_step_cycle, 60_exceptions R177, R182). -/

namespace Sys2Proof.Machine

namespace State

/-! ### Registers -/

/-- `V[x] <- b`. -/
def setV (s : State) (x : Reg) (b : Byte) : State := { s with v := s.v.set x.val b }
/-- `I <- w`. -/
def setI (s : State) (w : Word) : State := { s with i := w }
/-- `PC <- w`. -/
def setPC (s : State) (w : Word) : State := { s with pc := w }
/-- `SP <- w`. -/
def setSP (s : State) (w : Word) : State := { s with sp := w }
/-- `stack[k] <- w`. -/
def setStack (s : State) (k : Fin 16) (w : Word) : State := { s with stack := s.stack.set k.val w }
/-- `DT <- b`. -/
def setDT (s : State) (b : Byte) : State := { s with dt := b }
/-- `ST <- b`. -/
def setST (s : State) (b : Byte) : State := { s with st := b }
/-- mem <- m. -/
def setMem (s : State) (m : Memory) : State := { s with mem := m }
/-- FB <- fb. -/
def setFB (s : State) (fb : FrameBuffer) : State := { s with fb := fb }
/-- The key latch <- k (events only). -/
def setKeys (s : State) (k : BitVec 16) : State := { s with keys := k }
/-- `run <- r`. -/
def setRun (s : State) (r : RunState) : State := { s with run := r }
/-- The model's count of random draws (log 8). -/
def setDraws (s : State) (n : Nat) : State := { s with rndDraws := n }

/-- V[k] <- bytes[k] for every k the list reaches; the other registers stay (43_index_memory R145). -/
def loadRegs (s : State) (bytes : List Byte) : State :=
  { s with v := Vector.ofFn fun k : Reg => bytes.getD k.val (s.getV k) }

/-! ### Memory (20_memory R52); `none` is the raise of MemoryOutOfBounds -/

/-- `MemRead(addr, n)`. -/
def memRead (s : State) (addr n : Nat) : Option (List Byte) :=
  if inBounds addr n then some (s.mem.readAll addr n) else none

/-- `MemWrite(addr, n, bytes)` with n the length of the list. -/
def memWrite (s : State) (addr : Nat) (bytes : List Byte) : Option State :=
  if inBounds addr bytes.length then some (s.setMem (s.mem.writeAll addr bytes)) else none

/-! ### PC arithmetic, modulo 65536 (40_step_cycle R92) -/

/-- The pre-increment: PC <- trunc16(pc0 + 2). -/
def advance (s : State) : State := s.setPC (s.pc + 2#16)

/-- A further 2 when the condition holds (41_control_flow R105). -/
def skipIf (s : State) (b : Bool) : State := if b then s.setPC (s.pc + 2#16) else s

/-- PC <- trunc16(PC − 2), back to pc0: the stall of Fx0A (45_keys_timers R163). -/
def rewind (s : State) : State := s.setPC (s.pc - 2#16)

/-! ### Entering a fault, and the one way out -/

/-- `raise K(addr, opcode)` (60_exceptions R177): every component as before the Step, PC back at the failing
instruction, run <- FAULTED(K, addr, opcode). Nothing is written before a raise (20_memory R52, D25), so PC is the one
component to restore: `s` is the state before the Step except for its PC. -/
def raise (s : State) (k : FaultKind) (addr : Word) (opcode : Option Word) : State :=
  (s.setPC addr).setRun (.faulted k addr opcode)

/-- The raise of an executing instruction: PC has moved past it (40_step_cycle R94), so pc0 is PC − 2, and its word is
the one it encodes (log 14). -/
def raiseIn (s : State) (k : FaultKind) (i : Instr) : State :=
  s.raise k (s.pc - 2#16) (some (encode i))

/-- The fetch fault: addr = PC, no opcode (40_step_cycle R91). -/
def fetchFault (s : State) : State := s.raise .memoryOutOfBounds s.pc none

/-- The decode fault: addr = pc0, opcode = the word (40_step_cycle R93, 60_exceptions R171). -/
def decodeFault (s : State) (op : Word) : State := s.raise .unknownOpcode s.pc (some op)

/-- The event Reset, in any run state (70_reset_and_hazards R200): there is no return from a fault (60_exceptions
R178), and this is the only way out of FAULTED and HALTED. The model's count of random draws goes on, so that the
draws after it are unrelated to those before (log 8). -/
def restart (s : State) : State := State.reset.setDraws s.rndDraws

/-! ### The pieces of the Step (40_step_cycle R90) -/

/-- Fetch: the two bytes at PC, big-endian; `none` when PC + 1 ≥ `MEM_SIZE` (R91, 20_memory R53). -/
def fetch (s : State) : Option Word :=
  match s.memRead s.pc.toNat 2 with
  | some [b0, b1] => some (wordOfBytes b0 b1)
  | _ => none

/-- `Tick()`: both timers fall by 1 when nonzero, while RUNNING (60_exceptions R182). -/
def tick (s : State) : State :=
  if s.run = .running then
    (s.setDT (if s.dt = 0#8 then s.dt else s.dt - 1#8)).setST (if s.st = 0#8 then s.st else s.st - 1#8)
  else s

/-- The word placed where the next Step fetches it: its two bytes at PC and PC + 1 (no byte where memory does not
exist), and the machine RUNNING, which a Step needs to fetch at all (40_step_cycle R90, R91; log 15). -/
def placeWord (s : State) (op : Word) : State :=
  match s.memWrite s.pc.toNat (bytesOfWord op) with
  | some t => t.setRun .running
  | none => s.setRun .running

end State

/-- The end of a Step: with `TIMER_PER_STEP` one Tick, unless the Step faulted or halted, which is when `tick` does
nothing (40_step_cycle R90, R95; 00_scope R8). -/
def finishStep (perStep : Bool) : Host.Outcome State Fault Refusal → Host.Outcome State Fault Refusal
  | .next s => .next (if perStep then s.tick else s)
  | .fault f => .fault f
  | .refused r => .refused r

end Sys2Proof.Machine
end

