-- ==== Sys2Proof/Machine/Alu.lean ====
section
/-! DEFINITION. Register loads, arithmetic-logic unit, random (spec 42_load_alu R120 to R133). Statements run in the
order the rules write them, each seeing the writes before it (R133): the flag first, then the result. -/

namespace Sys2Proof.Machine

/-- LD Vx, byte (R120). -/
def execLdByte (x : Reg) (kk : Byte) (s : State) : Host.Outcome State Fault Refusal := .next (s.setV x kk)

/-- ADD Vx, byte (R121): no flag. -/
def execAddByte (x : Reg) (kk : Byte) (s : State) : Host.Outcome State Fault Refusal :=
  .next (s.setV x (trunc8 ((s.getV x).toNat + kk.toNat)))

/-- LD Vx, Vy (R122). -/
def execLdReg (x y : Reg) (s : State) : Host.Outcome State Fault Refusal := .next (s.setV x (s.getV y))

/-- OR Vx, Vy (R123): no flag. -/
def execOrReg (x y : Reg) (s : State) : Host.Outcome State Fault Refusal :=
  .next (s.setV x (s.getV x ||| s.getV y))

/-- AND Vx, Vy (R124): no flag. -/
def execAndReg (x y : Reg) (s : State) : Host.Outcome State Fault Refusal :=
  .next (s.setV x (s.getV x &&& s.getV y))

/-- XOR Vx, Vy (R125): no flag. -/
def execXorReg (x y : Reg) (s : State) : Host.Outcome State Fault Refusal :=
  .next (s.setV x (s.getV x ^^^ s.getV y))

/-- The shape of ADD, SUB and SUBN: both values are computed from the old operands, VF is written, then V[x]. -/
def flagThenResult (s : State) (x : Reg) (f r : Byte) : State := (s.setV vf f).setV x r

/-- ADD Vx, Vy (R126): VF = carry. -/
def execAddReg (x y : Reg) (s : State) : Host.Outcome State Fault Refusal :=
  .next (flagThenResult s x (carryFlag (s.getV x) (s.getV y)) (trunc8 ((s.getV x).toNat + (s.getV y).toNat)))

/-- SUB Vx, Vy (R127): VF = NOT borrow of V[x] − V[y]. -/
def execSubReg (x y : Reg) (s : State) : Host.Outcome State Fault Refusal :=
  .next (flagThenResult s x (notBorrowFlag (s.getV x) (s.getV y)) (s.getV x - s.getV y))

/-- SUBN Vx, Vy (R129): VF = NOT borrow of V[y] − V[x]. -/
def execSubnReg (x y : Reg) (s : State) : Host.Outcome State Fault Refusal :=
  .next (flagThenResult s x (notBorrowFlag (s.getV y) (s.getV x)) (s.getV y - s.getV x))

/-- SHR Vx (R128, R133): V[x] is read again after VF is written; y is ignored (R82). -/
def execShr (x _y : Reg) (s : State) : Host.Outcome State Fault Refusal :=
  let s1 := s.setV vf (shiftOutRight (s.getV x))
  .next (s1.setV x (trunc8 ((s1.getV x).toNat / 2)))

/-- SHL Vx (R130, R133): V[x] is read again after VF is written; y is ignored (R82). -/
def execShl (x _y : Reg) (s : State) : Host.Outcome State Fault Refusal :=
  let s1 := s.setV vf (shiftOutLeft (s.getV x))
  .next (s1.setV x (trunc8 ((s1.getV x).toNat * 2)))

/-- RND with the byte r the oracle answers (R131). -/
def rndWith (r : Byte) (x : Reg) (kk : Byte) (s : State) : State := s.setV x (r &&& kk)

/-- RND Vx, byte (R131): r is a free value, a fresh one at every draw (60_exceptions R186, log 8). -/
def execRnd (x : Reg) (kk : Byte) (s : State) : Host.Outcome State Fault Refusal :=
  .next ((rndWith (Config.randomByte s.rndDraws) x kk s).setDraws (s.rndDraws + 1))

end Sys2Proof.Machine
end

