-- ==== Sys2Proof/Machine/ControlFlow.lean ====
section
/-! DEFINITION. Control flow and system instructions (spec 41_control_flow R100 to R109). In every meaning PC already
holds pc0 + 2 (40_step_cycle R94). -/

namespace Sys2Proof.Machine

/-- SYS addr (R100): nothing. -/
def execSys (_nnn : Addr12) (s : State) : Host.Outcome State Fault Refusal := .next s

/-- RET (R101): the new SP indexes the entry popped. An SP above 16 has no entry (log 11). -/
def execRet (s : State) : Host.Outcome State Fault Refusal :=
  if s.sp = 0#16 then .next (s.raiseIn .stackUnderflow .ret)
  else if h : s.sp.toNat - 1 < 16 then
    .next ((s.setSP (s.sp - 1#16)).setPC s.stack[s.sp.toNat - 1])
  else .fault .stackPointerOutOfRange

/-- EXIT (R102): run <- HALTED, PC stays at pc0 + 2. -/
def execExit (s : State) : Host.Outcome State Fault Refusal := .next (s.setRun .halted)

/-- JP addr (R103). -/
def execJp (nnn : Addr12) (s : State) : Host.Outcome State Fault Refusal := .next (s.setPC (zext16 nnn))

/-- CALL addr (R104): pushes the address after the CALL. -/
def execCall (nnn : Addr12) (s : State) : Host.Outcome State Fault Refusal :=
  if h : s.sp.toNat < 16 then
    .next (((s.setStack ⟨s.sp.toNat, h⟩ s.pc).setSP (s.sp + 1#16)).setPC (zext16 nnn))
  else .next (s.raiseIn .stackOverflow (.call nnn))

/-- SE Vx, byte (R105). -/
def execSeByte (x : Reg) (kk : Byte) (s : State) : Host.Outcome State Fault Refusal :=
  .next (s.skipIf (s.getV x == kk))

/-- SNE Vx, byte (R106). -/
def execSneByte (x : Reg) (kk : Byte) (s : State) : Host.Outcome State Fault Refusal :=
  .next (s.skipIf (s.getV x != kk))

/-- SE Vx, Vy (R107). -/
def execSeReg (x y : Reg) (s : State) : Host.Outcome State Fault Refusal :=
  .next (s.skipIf (s.getV x == s.getV y))

/-- SNE Vx, Vy (R108). -/
def execSneReg (x y : Reg) (s : State) : Host.Outcome State Fault Refusal :=
  .next (s.skipIf (s.getV x != s.getV y))

/-- JP V0, addr (R109): always V0. -/
def execJpV0 (nnn : Addr12) (s : State) : Host.Outcome State Fault Refusal :=
  .next (s.setPC (zext16 (s.getV 0) + zext16 nnn))

end Sys2Proof.Machine
end

