-- ==== Sys2Proof/Machine/Display.lean ====
section
/-! DEFINITION. Display buffer, sprite blit, collision detector (spec 10_state R29; 44_display R150 to R153). -/

namespace Sys2Proof.Machine

/-- `FB[t]`, t in 0..2047. -/
def FrameBuffer.pixel (fb : FrameBuffer) (t : Nat) : Bool :=
  if h : t / 64 < 32 then fb[t / 64].getLsbD (t % 64) else false

/-- `FB[t] <- FB[t] ^ 1`, t in 0..2047. -/
def FrameBuffer.flip (fb : FrameBuffer) (t : Nat) : FrameBuffer :=
  if h : t / 64 < 32 then fb.set (t / 64) (fb[t / 64] ^^^ BitVec.twoPow 64 (t % 64)) else fb

/-- Every pixel off (R150). -/
def FrameBuffer.clear : FrameBuffer := Vector.replicate 32 0#64

/-- The sprite bit of column c: bit 7 of the byte is the leftmost pixel (R151, D6). -/
def spriteBit (row : Byte) (c : Nat) : Bool := row.getLsbD (7 - c)

/-- `Target(cx, cy)`, the flat index a pixel lands on, or none (R152, 00_scope R9). -/
def target (hw : HWrap) (cx cy : Nat) : Option Nat :=
  match hw with
  | .nextRow => if 64 * cy + cx ≤ 2047 then some (64 * cy + cx) else none
  | .sameRow => if cy ≤ 31 then some (64 * cy + cx % 64) else none

/-- The set bits of one sprite row as (column, row), left to right. -/
def rowPoints (r : Nat) (row : Byte) : List (Nat × Nat) :=
  ((List.range 8).filter (spriteBit row)).map fun c => (c, r)

/-- The set bits of the sprite rows from row r on, top to bottom. -/
def spritePoints (r : Nat) : List Byte → List (Nat × Nat)
  | [] => []
  | row :: rows => rowPoints r row ++ spritePoints (r + 1) rows

/-- The pixels a sprite drawn at (x0, y0) touches, in the order of the scan (R151). -/
def blitTargets (hw : HWrap) (x0 y0 : Nat) (rows : List Byte) : List Nat :=
  (spritePoints 0 rows).filterMap fun p => target hw (x0 + p.1) (y0 + p.2)

/-- One touched pixel: the collision is noted when it was on, then it is flipped (R151). -/
def xorPixel (acc : FrameBuffer × Bool) (t : Nat) : FrameBuffer × Bool :=
  (acc.1.flip t, acc.2 || acc.1.pixel t)

/-- The scan of R151 from a cleared flag: the new buffer and the collision. -/
def blit (hw : HWrap) (x0 y0 : Nat) (rows : List Byte) (fb : FrameBuffer) : FrameBuffer × Bool :=
  (blitTargets hw x0 y0 rows).foldl xorPixel (fb, false)

/-- CLS (R150). -/
def execCls (s : State) : Host.Outcome State Fault Refusal := .next (s.setFB FrameBuffer.clear)

/-- DRW under a value of `DRW_HWRAP` (R151, R152): the coordinates are read before VF is written; n = 0 reads nothing,
draws nothing and sets VF = 0. -/
def drawSprite (hw : HWrap) (x y : Reg) (n : Fin 16) (s : State) : Host.Outcome State Fault Refusal :=
  let x0 := (s.getV x).toNat % 64
  let y0 := (s.getV y).toNat % 32
  match s.memRead s.i.toNat n.val with
  | none => .next (s.raiseIn .memoryOutOfBounds (.drw x y n))
  | some rows =>
    let drawn := blit hw x0 y0 rows s.fb
    .next ((s.setFB drawn.1).setV vf (flag drawn.2))

/-- DRW Vx, Vy, nibble (R151). -/
def execDrw (x y : Reg) (n : Fin 16) (s : State) : Host.Outcome State Fault Refusal :=
  drawSprite params.drwHWrap x y n s

end Sys2Proof.Machine
end

