-- ==== Sys2Proof/Machine/IndexMemory.lean ====
section
/-! DEFINITION. Index register, BCD encoder, loads and stores (spec 43_index_memory R140 to R145). The base address is
I as an unbounded integer. -/

namespace Sys2Proof.Machine

/-- LD I, addr (R140). -/
def execLdI (nnn : Addr12) (s : State) : Host.Outcome State Fault Refusal := .next (s.setI (zext16 nnn))

/-- ADD I, Vx (R141): modulo 65536, no flag. -/
def execAddIVx (x : Reg) (s : State) : Host.Outcome State Fault Refusal :=
  .next (s.setI (s.i + zext16 (s.getV x)))

/-- LD F, Vx (R142). -/
def execLdFVx (x : Reg) (s : State) : Host.Outcome State Fault Refusal :=
  .next (s.setI (glyphAddress (s.getV x)))

/-- I <- trunc16(I + x + 1), the post-increment of Fx55 and Fx65 (R144, R145). -/
def bumpI (s : State) (x : Reg) : State := s.setI (s.i + trunc16 (x.val + 1))

/-- LD B, Vx (R143): the three digits at I, I + 1, I + 2. -/
def execLdBVx (x : Reg) (s : State) : Host.Outcome State Fault Refusal :=
  match s.memWrite s.i.toNat (bcdDigits (s.getV x)) with
  | none => .next (s.raiseIn .memoryOutOfBounds (.ldBVx x))
  | some t => .next t

/-- LD [I], Vx (R144): V[0] to V[x] at I to I + x, then I moves past them. -/
def execLdMemVx (x : Reg) (s : State) : Host.Outcome State Fault Refusal :=
  match s.memWrite s.i.toNat (s.regsUpTo x) with
  | none => .next (s.raiseIn .memoryOutOfBounds (.ldMemVx x))
  | some t => .next (bumpI t x)

/-- LD Vx, [I] (R145): V[0] to V[x] from I to I + x, then I moves past them. -/
def execLdVxMem (x : Reg) (s : State) : Host.Outcome State Fault Refusal :=
  match s.memRead s.i.toNat (x.val + 1) with
  | none => .next (s.raiseIn .memoryOutOfBounds (.ldVxMem x))
  | some bytes => .next (bumpI (s.loadRegs bytes) x)

end Sys2Proof.Machine
end

