-- ==== Sys2Proof/Machine/KeysTimers.lean ====
section
/-! DEFINITION. Key and timer instructions (spec 45_keys_timers R160 to R165). -/

namespace Sys2Proof.Machine

/-- SKP Vx (R160): the level of the latch, key = low 4 bits of V[x]. -/
def execSkp (x : Reg) (s : State) : Host.Outcome State Fault Refusal :=
  .next (s.skipIf (s.keyDown (keyOf (s.getV x))))

/-- SKNP Vx (R161). -/
def execSknp (x : Reg) (s : State) : Host.Outcome State Fault Refusal :=
  .next (s.skipIf (!s.keyDown (keyOf (s.getV x))))

/-- LD Vx, DT (R162). -/
def execLdVxDT (x : Reg) (s : State) : Host.Outcome State Fault Refusal := .next (s.setV x s.dt)

/-- LD Vx, K under a `KEY_SELECT` (R163): no key pressed, back to pc0; else the selected key. -/
def waitKey (select : BitVec 16 → Key) (x : Reg) (s : State) : State :=
  if s.keys = 0#16 then s.rewind else s.setV x (trunc8 (select s.keys).val)

/-- LD Vx, K (R163). -/
def execLdVxK (x : Reg) (s : State) : Host.Outcome State Fault Refusal := .next (waitKey params.keySelect x s)

/-- LD DT, Vx (R164). -/
def execLdDTVx (x : Reg) (s : State) : Host.Outcome State Fault Refusal := .next (s.setDT (s.getV x))

/-- LD ST, Vx (R165). -/
def execLdSTVx (x : Reg) (s : State) : Host.Outcome State Fault Refusal := .next (s.setST (s.getV x))

end Sys2Proof.Machine
end

