-- ==== Sys2Proof/Machine/Step.lean ====
section
/-! DEFINITION. The event Step (spec 40_step_cycle R90 to R97): fetch, PC pre-increment, decode, execute, and with
`TIMER_PER_STEP` the timer decrement; and where the next Step fetches. -/

namespace Sys2Proof.Machine

/-- `Step()` (R90). While run is not RUNNING it changes nothing. A fault ends in a next state with run = FAULTED and
everything else as before (R96). -/
def step (s : State) : Host.Outcome State Fault Refusal :=
  match s.run with
  | .running =>
    match s.fetch with
    | none => .next s.fetchFault
    | some op =>
      match decode op with
      | .error _ => .next (s.decodeFault op)
      | .ok i => finishStep params.timerPerStep (exec i s.advance)
  | .halted => .next s
  | .faulted _ _ _ => .next s

/-- `s` with the word `w` where the next Step fetches it (log 15). Every row has 16 bits, so `nbits` is always 16; the
bits above it are 0. -/
def State.withFetchWord (s : State) (nbits w : Nat) : State := s.placeWord (BitVec.ofNat 16 (w % 2 ^ nbits))

end Sys2Proof.Machine
end

