-- ==== Sys2Proof/Machine/Assembly.lean ====
section
/-! DEFINITION. The assembly syntax of the spec's listings (spec 30_encoding R84, R85): tokens, the assembler and the
disassembler over tokens, and reading a line of text as a list of characters (log 19). It binds nothing in the machine. -/

namespace Sys2Proof.Machine

/-- The mnemonics of R84. -/
inductive Mnemonic
  | CLS | RET | EXIT | SYS | JP | CALL | SE | SNE | LD | ADD | OR | AND | XOR | SUB | SHR | SUBN | SHL
  | RND | DRW | SKP | SKNP
deriving DecidableEq, Repr

/-- The operands of R84: a register, an integer, or one of the literal keywords. -/
inductive Operand
  | reg (x : Reg)
  | num (n : Nat)
  | I | DT | ST | K | F | B
  /-- `[I]`, "memory at I" -/
  | memI
deriving DecidableEq, Repr

/-- `byte`: 0..255. -/
def byteOperand (n : Nat) : Option Byte := if n < 256 then some (BitVec.ofNat 8 n) else none
/-- `addr`: 0..4095. -/
def addrOperand (n : Nat) : Option Addr12 := if n < 4096 then some (BitVec.ofNat 12 n) else none
/-- `nibble`: 0..15. -/
def nibbleOperand (n : Nat) : Option (Fin 16) := if h : n < 16 then some ⟨n, h⟩ else none

/-- An instruction from its mnemonic and operands, destination first (R84), before the check of its word. -/
def readInstr : Mnemonic → List Operand → Option Instr
  | .CLS, [] => some .cls
  | .RET, [] => some .ret
  | .EXIT, [] => some .exit
  | .SYS, [.num n] => (addrOperand n).map .sys
  | .JP, [.num n] => (addrOperand n).map .jp
  | .JP, [.reg x, .num n] => if x = 0 then (addrOperand n).map .jpV0 else none
  | .CALL, [.num n] => (addrOperand n).map .call
  | .SE, [.reg x, .num n] => (byteOperand n).map (.seByte x)
  | .SE, [.reg x, .reg y] => some (.seReg x y)
  | .SNE, [.reg x, .num n] => (byteOperand n).map (.sneByte x)
  | .SNE, [.reg x, .reg y] => some (.sneReg x y)
  | .LD, [.reg x, .num n] => (byteOperand n).map (.ldByte x)
  | .LD, [.reg x, .reg y] => some (.ldReg x y)
  | .LD, [.I, .num n] => (addrOperand n).map .ldI
  | .LD, [.reg x, .DT] => some (.ldVxDT x)
  | .LD, [.reg x, .K] => some (.ldVxK x)
  | .LD, [.DT, .reg x] => some (.ldDTVx x)
  | .LD, [.ST, .reg x] => some (.ldSTVx x)
  | .LD, [.F, .reg x] => some (.ldFVx x)
  | .LD, [.B, .reg x] => some (.ldBVx x)
  | .LD, [.memI, .reg x] => some (.ldMemVx x)
  | .LD, [.reg x, .memI] => some (.ldVxMem x)
  | .ADD, [.reg x, .num n] => (byteOperand n).map (.addByte x)
  | .ADD, [.reg x, .reg y] => some (.addReg x y)
  | .ADD, [.I, .reg x] => some (.addIVx x)
  | .OR, [.reg x, .reg y] => some (.orReg x y)
  | .AND, [.reg x, .reg y] => some (.andReg x y)
  | .XOR, [.reg x, .reg y] => some (.xorReg x y)
  | .SUB, [.reg x, .reg y] => some (.subReg x y)
  | .SUBN, [.reg x, .reg y] => some (.subnReg x y)
  | .SHR, [.reg x] => some (.shr x 0)
  | .SHR, [.reg x, .reg y] => some (.shr x y)
  | .SHL, [.reg x] => some (.shl x 0)
  | .SHL, [.reg x, .reg y] => some (.shl x y)
  | .RND, [.reg x, .num n] => (byteOperand n).map (.rnd x)
  | .DRW, [.reg x, .reg y, .num n] => (nibbleOperand n).map (.drw x y)
  | .SKP, [.reg x] => some (.skp x)
  | .SKNP, [.reg x] => some (.sknp x)
  | _, _ => none

/-- The assembler: it refuses an instruction whose word is another's, SYS at 0x0E0, 0x0EE and 0x0FD (R84). -/
def assemble (m : Mnemonic) (ops : List Operand) : Option Instr :=
  match readInstr m ops with
  | some i => if i.wf then some i else none
  | none => none

/-- The mnemonic and operands of an instruction; a y field of a shift is written when it is not 0 (R84). -/
def disassemble : Instr → Mnemonic × List Operand
  | .cls => (.CLS, [])
  | .ret => (.RET, [])
  | .exit => (.EXIT, [])
  | .sys nnn => (.SYS, [.num nnn.toNat])
  | .jp nnn => (.JP, [.num nnn.toNat])
  | .call nnn => (.CALL, [.num nnn.toNat])
  | .seByte x kk => (.SE, [.reg x, .num kk.toNat])
  | .sneByte x kk => (.SNE, [.reg x, .num kk.toNat])
  | .seReg x y => (.SE, [.reg x, .reg y])
  | .ldByte x kk => (.LD, [.reg x, .num kk.toNat])
  | .addByte x kk => (.ADD, [.reg x, .num kk.toNat])
  | .ldReg x y => (.LD, [.reg x, .reg y])
  | .orReg x y => (.OR, [.reg x, .reg y])
  | .andReg x y => (.AND, [.reg x, .reg y])
  | .xorReg x y => (.XOR, [.reg x, .reg y])
  | .addReg x y => (.ADD, [.reg x, .reg y])
  | .subReg x y => (.SUB, [.reg x, .reg y])
  | .shr x y => (.SHR, if y = 0 then [.reg x] else [.reg x, .reg y])
  | .subnReg x y => (.SUBN, [.reg x, .reg y])
  | .shl x y => (.SHL, if y = 0 then [.reg x] else [.reg x, .reg y])
  | .sneReg x y => (.SNE, [.reg x, .reg y])
  | .ldI nnn => (.LD, [.I, .num nnn.toNat])
  | .jpV0 nnn => (.JP, [.reg 0, .num nnn.toNat])
  | .rnd x kk => (.RND, [.reg x, .num kk.toNat])
  | .drw x y n => (.DRW, [.reg x, .reg y, .num n.val])
  | .skp x => (.SKP, [.reg x])
  | .sknp x => (.SKNP, [.reg x])
  | .ldVxDT x => (.LD, [.reg x, .DT])
  | .ldVxK x => (.LD, [.reg x, .K])
  | .ldDTVx x => (.LD, [.DT, .reg x])
  | .ldSTVx x => (.LD, [.ST, .reg x])
  | .addIVx x => (.ADD, [.I, .reg x])
  | .ldFVx x => (.LD, [.F, .reg x])
  | .ldBVx x => (.LD, [.B, .reg x])
  | .ldMemVx x => (.LD, [.memI, .reg x])
  | .ldVxMem x => (.LD, [.reg x, .memI])

/-- A line of a listing: an instruction, or one of the two data directives (R84, R85). -/
inductive Line
  | ins (i : Instr)
  /-- `DB b` places one byte -/
  | db (b : Byte)
  /-- `DW w` places a 16-bit word, high byte first -/
  | dw (w : Word)
deriving DecidableEq, Repr

/-- The bytes a line places. -/
def Line.bytes : Line → List Byte
  | .ins i => encodeBytes i
  | .db b => [b]
  | .dw w => bytesOfWord w

/-- The ROM of a listing, its lines one after the other. -/
def romOf (lines : List Line) : List Byte := lines.flatMap Line.bytes

/-! ### Reading text -/

/-- The mnemonics by their letters. -/
def mnemonicNames : List (List Char × Mnemonic) :=
  [("CLS".toList, .CLS), ("RET".toList, .RET), ("EXIT".toList, .EXIT), ("SYS".toList, .SYS),
   ("JP".toList, .JP), ("CALL".toList, .CALL), ("SE".toList, .SE), ("SNE".toList, .SNE)] ++
  [("LD".toList, .LD), ("ADD".toList, .ADD), ("OR".toList, .OR), ("AND".toList, .AND), ("XOR".toList, .XOR),
   ("SUB".toList, .SUB), ("SHR".toList, .SHR), ("SUBN".toList, .SUBN), ("SHL".toList, .SHL)] ++
  [("RND".toList, .RND), ("DRW".toList, .DRW), ("SKP".toList, .SKP), ("SKNP".toList, .SKNP)]

/-- The literal operand keywords. -/
def keywordNames : List (List Char × Operand) :=
  [("I".toList, .I), ("DT".toList, .DT), ("ST".toList, .ST), ("K".toList, .K), ("F".toList, .F), ("B".toList, .B), ("[I]".toList, .memI)]

/-- The sixteen digits, each at the position of its value, in capitals and in small letters. -/
def digitRows : List (List Char) := ["0123456789ABCDEF".toList, "0123456789abcdef".toList]

/-- The value of a digit: its position in the first row that has it. -/
def digitValue (c : Char) : Option Nat := digitRows.findSome? (List.idxOf? c)

/-- An unsigned numeral of at least one digit, each of them below the base; the first weighs most. -/
def numeral (base : Nat) (cs : List Char) : Option Nat :=
  match cs.mapM digitValue with
  | some ds =>
    if ds ≠ [] ∧ ds.all (· < base) then some (ds.foldl (fun value d => base * value + d) 0) else none
  | none => none

/-- An integer: decimal, or hexadecimal with the prefix 0x (R84). -/
def readNumber (cs : List Char) : Option Nat :=
  if "0x".toList.isPrefixOf cs then numeral 16 (cs.drop 2) else numeral 10 cs

/-- A register: V and one hexadecimal digit, in either case (R84); the digit is the field x or y. -/
def readReg (cs : List Char) : Option Reg :=
  match cs with
  | ['V', d] => (digitValue d).bind nibbleOperand
  | ['v', d] => (digitValue d).bind nibbleOperand
  | _ => none

/-- One operand. -/
def readOperand (cs : List Char) : Option Operand :=
  match keywordNames.lookup cs with
  | some k => some k
  | none =>
    match readReg cs with
    | some x => some (.reg x)
    | none => (readNumber cs).map .num

/-- The pieces of a text between separators. -/
def splitAtChar (sep : Char) : List Char → List (List Char)
  | [] => [[]]
  | c :: cs =>
    if c = sep then [] :: splitAtChar sep cs
    else
      match splitAtChar sep cs with
      | [] => [[c]]
      | w :: ws => (c :: w) :: ws

/-- A text without the spaces around it. -/
def trimSpaces (cs : List Char) : List Char :=
  ((cs.dropWhile (· == ' ')).reverse.dropWhile (· == ' ')).reverse

/-- The operands of a line: none, or separated by commas (R84). -/
def readOperands (cs : List Char) : Option (List Operand) :=
  if trimSpaces cs = [] then some []
  else (splitAtChar ',' cs).mapM fun w => readOperand (trimSpaces w)

/-- One line: a mnemonic, then its operands; or `DB b`, `DW w` (R84, R85). -/
def readLine (cs : List Char) : Option Line :=
  let line := trimSpaces cs
  let name := line.takeWhile (· != ' ')
  let rest := line.dropWhile (· != ' ')
  if name = "DB".toList then (readNumber (trimSpaces rest)).bind fun n => (byteOperand n).map .db
  else if name = "DW".toList then
    (readNumber (trimSpaces rest)).bind fun n => if n < 65536 then some (.dw (BitVec.ofNat 16 n)) else none
  else
    match mnemonicNames.lookup name, readOperands rest with
    | some m, some ops => (assemble m ops).map .ins
    | _, _ => none

end Sys2Proof.Machine
end

