-- ==== Sys2Proof/Machine/Events.lean ====
section
/-! DEFINITION. The events that act on the core's state (spec 00_scope R4, 60_exceptions R182 to R190,
70_reset_and_hazards R200 to R202) and runs under any schedule of them (D22, log 12). -/

namespace Sys2Proof.Machine

/-- The events, each atomic (00_scope R4). -/
inductive Event
  /-- 70_reset_and_hazards R200 -/
  | reset
  /-- 70_reset_and_hazards R201 -/
  | loadRom (bytes : List Byte)
  /-- 40_step_cycle R90 -/
  | step
  /-- 60_exceptions R182 -/
  | tick
  /-- 60_exceptions R185 -/
  | keySet (k : Key)
  /-- 60_exceptions R185 -/
  | keyClear (k : Key)
deriving DecidableEq, Repr

namespace State

/-- `key[k] <- 1`, in every run state (60_exceptions R185). -/
def keySet (s : State) (k : Key) : State := s.setKeys (s.keys ||| BitVec.twoPow 16 k.val)

/-- `key[k] <- 0`, in every run state (60_exceptions R185). -/
def keyClear (s : State) (k : Key) : State := s.setKeys (s.keys &&& ~~~(BitVec.twoPow 16 k.val))

/-- A state that no Step and no LoadROM has changed since Reset: only key events can have happened (log 13). -/
def justReset (s : State) : Bool := s == (State.reset.setDraws s.rndDraws).setKeys s.keys

/-- The image LoadROM leaves: the bytes from `PROG_BASE` on (70_reset_and_hazards R201). -/
def withRom (s : State) (bytes : List Byte) : State := s.setMem (s.mem.writeAll Config.progBase bytes)

/-- `LoadROM(bytes)`. More than `ROM_MAX` bytes, or a machine that is not just after Reset, is a launch the spec gives
no meaning (70_reset_and_hazards R202, R212; U15, U38). -/
def loadRom (s : State) (bytes : List Byte) : Host.Outcome State Fault Refusal :=
  if romMax < bytes.length then .refused .romTooLarge
  else if s.justReset then .next (s.withRom bytes)
  else .refused .loadRomNotAfterReset

end State

/-- What an event does. -/
def applyEvent (e : Event) (s : State) : Host.Outcome State Fault Refusal :=
  match e with
  | .reset => .next s.restart
  | .loadRom bytes => s.loadRom bytes
  | .step => step s
  | .tick => .next s.tick
  | .keySet k => .next (s.keySet k)
  | .keyClear k => .next (s.keyClear k)

/-- A run under a schedule: the events in order, stopping at the first fault or refusal of the model. A claim about a
program quantifies over schedules (70_reset_and_hazards R209, R210). -/
def runEvents : List Event → State → Host.Outcome State Fault Refusal
  | [], s => .next s
  | e :: es, s =>
    match applyEvent e s with
    | .next t => runEvents es t
    | .fault f => .fault f
    | .refused r => .refused r

end Sys2Proof.Machine
end

