-- ==== Sys2Proof/Machine/Observe.lean ====
section
/-! DEFINITION. What the collaborators read between events (spec 60_exceptions R170, R184, R187, R188, R191). Nothing
here changes a state. -/

namespace Sys2Proof.Machine

/-- The numeric code of a fault kind (60_exceptions R170, D12). -/
def FaultKind.code : FaultKind → Nat
  | .unknownOpcode => 1
  | .stackOverflow => 2
  | .stackUnderflow => 3
  | .memoryOutOfBounds => 4

/-- `sound_active` = (ST ≠ 0), the level (60_exceptions R184). -/
def State.soundActive (s : State) : Bool := s.st != 0#8

/-- `should_play`, sampled at a Tick: ST ≠ 0 in the state before its decrement (60_exceptions R184, D21). -/
def State.shouldPlay (beforeTick : State) : Bool := beforeTick.st != 0#8

/-- What the render sink reads: pixel (c, r) is `FB[64·r + c]` (60_exceptions R187). -/
def State.pixelAt (s : State) (c r : Nat) : Bool := s.fb.pixel (64 * r + c)

/-- What the trace sink may see of a Step about to run: PC, the decoded instruction, the registers (60_exceptions R188,
40_step_cycle R97). -/
structure TraceRecord where
  pc : Word
  ins : Option Instr
  v : Vector Byte 16
  i : Word
  sp : Word
  dt : Byte
  st : Byte
deriving DecidableEq, Repr

/-- The trace record of a state; no instruction where the fetch or the decode would fault. -/
def State.trace (s : State) : TraceRecord where
  pc := s.pc
  ins := match s.fetch with
    | some op => (decode op).toOption
    | none => none
  v := s.v
  i := s.i
  sp := s.sp
  dt := s.dt
  st := s.st

/-- The exit code of the software a stopped machine corresponds to: 0 for HALTED, 1 for FAULTED (60_exceptions R191).
A running machine has none. -/
def RunState.exitCode : RunState → Option Nat
  | .running => none
  | .halted => some 0
  | .faulted _ _ _ => some 1

end Sys2Proof.Machine
end

