-- ==== Sys2Proof/Safety.lean ====
section
/-! DEFINITION. The terms claims are stated in: what a step leaves unchanged, how a fault is entered, the invariant of
the machine, and how a run ends. -/

namespace Sys2Proof.Machine

/-! ### Frames -/

/-- One component of the state, memory and display read one byte and one pixel at a time. -/
inductive Comp
  | v (x : Reg) | i | pc | sp | stack (k : Fin 16) | dt | st | mem (a : Nat) | pixel (p : Nat) | key (k : Key) | run
  | draws
deriving DecidableEq, Repr

/-- The component has the same value in both states. -/
def State.agree (s t : State) : Comp → Prop
  | .v x => t.getV x = s.getV x
  | .i => t.i = s.i
  | .pc => t.pc = s.pc
  | .sp => t.sp = s.sp
  | .stack k => t.stack[k.val] = s.stack[k.val]
  | .dt => t.dt = s.dt
  | .st => t.st = s.st
  | .mem a => t.mem.read a = s.mem.read a
  | .pixel p => t.fb.pixel p = s.fb.pixel p
  | .key k => t.keyDown k = s.keyDown k
  | .run => t.run = s.run
  | .draws => t.rndDraws = s.rndDraws

/-- Every component outside P is unchanged from s to t. -/
def State.changesOnly (s t : State) (P : Comp → Prop) : Prop := ∀ c, ¬ P c → s.agree t c

/-- From s, in which PC is past the instruction, its meaning enters the fault K (60_exceptions R177): PC is back at the
instruction, run records the kind, that address and the word, and nothing else changes. -/
def State.entersFault (s t : State) (k : FaultKind) (op : Nat) : Prop :=
  t.run = .faulted k (s.pc - 2#16) (some (BitVec.ofNat 16 op)) ∧ t.pc = s.pc - 2#16 ∧
    s.changesOnly t (· ∈ [.pc, .run])

/-! ### The invariant -/

/-- How many bytes from I on the instruction accesses (20_memory R56). -/
def span : Instr → Nat
  | .ldBVx _ => 3
  | .ldMemVx x => x.val + 1
  | .ldVxMem x => x.val + 1
  | .drw _ _ n => n.val
  | .cls | .ret | .exit => 0
  | .sys _ | .jp _ | .call _ | .ldI _ | .jpV0 _ => 0
  | .seByte _ _ | .sneByte _ _ | .ldByte _ _ | .addByte _ _ | .rnd _ _ => 0
  | .seReg _ _ | .sneReg _ _ | .ldReg _ _ | .orReg _ _ | .andReg _ _ | .xorReg _ _ => 0
  | .addReg _ _ | .subReg _ _ | .shr _ _ | .subnReg _ _ | .shl _ _ => 0
  | .skp _ | .sknp _ | .ldVxDT _ | .ldVxK _ | .ldDTVx _ | .ldSTVx _ | .addIVx _ | .ldFVx _ => 0

/-- The instruction may write V[k]: as its destination, as one of the registers of a load, or as the flag VF (10_state
R20, R21). -/
def mayWriteV (k : Reg) : Instr → Bool
  | .ldByte x _ | .addByte x _ | .rnd x _ => x == k
  | .ldReg x _ | .orReg x _ | .andReg x _ | .xorReg x _ => x == k
  | .addReg x _ | .subReg x _ | .shr x _ | .subnReg x _ | .shl x _ => x == k || k == vf
  | .drw _ _ _ => k == vf
  | .ldVxDT x | .ldVxK x => x == k
  | .ldVxMem x => decide (k ≤ x)
  | .cls | .ret | .exit => false
  | .sys _ | .jp _ | .call _ | .ldI _ | .jpV0 _ => false
  | .seByte _ _ | .sneByte _ _ | .seReg _ _ | .sneReg _ _ | .skp _ | .sknp _ => false
  | .ldDTVx _ | .ldSTVx _ | .addIVx _ | .ldFVx _ | .ldBVx _ | .ldMemVx _ => false

/-- The six skips (10_state R23). -/
def isSkip : Instr → Bool
  | .seByte _ _ | .sneByte _ _ | .seReg _ _ | .sneReg _ _ | .skp _ | .sknp _ => true
  | .cls | .ret | .exit => false
  | .sys _ | .jp _ | .call _ | .ldI _ | .jpV0 _ => false
  | .ldByte _ _ | .addByte _ _ | .rnd _ _ => false
  | .ldReg _ _ | .orReg _ _ | .andReg _ _ | .xorReg _ _ => false
  | .addReg _ _ | .subReg _ _ | .shr _ _ | .subnReg _ _ | .shl _ _ => false
  | .drw _ _ _ => false
  | .ldVxDT _ | .ldVxK _ | .ldDTVx _ | .ldSTVx _ | .addIVx _ | .ldFVx _ | .ldBVx _ | .ldMemVx _ | .ldVxMem _ => false

/-- Why a Step at s raises a fault of this kind, read off the state before the Step (60_exceptions R171 to R174): `word`
is what it fetches. -/
def FaultKind.cause (k : FaultKind) (s : State) (word : Option Word) : Prop :=
  match k, word with
  | .memoryOutOfBounds, none => s.pc.toNat + 1 ≥ params.memSize
  | .memoryOutOfBounds, some op =>
    ∃ i, decode op = .ok i ∧ span i > 0 ∧ s.i.toNat + span i - 1 ≥ params.memSize
  | .unknownOpcode, some op => ∃ e, decode op = .error e
  | .stackOverflow, some op => ∃ nnn, decode op = .ok (.call nnn) ∧ s.sp.toNat ≥ 16
  | .stackUnderflow, some op => decode op = .ok .ret ∧ s.sp = 0#16
  | .unknownOpcode, none => False
  | .stackOverflow, none => False
  | .stackUnderflow, none => False

/-- The run state tells the truth (10_state R31): a fault record names the instruction PC is at, its word and a cause
that holds; a halted machine stands just past the word 00FD (41_control_flow R102). -/
def State.runTrue (s : State) : Prop :=
  match s.run with
  | .running => True
  | .halted => (s.setPC (s.pc - 2#16)).fetch = some 0x00FD#16
  | .faulted k addr word => addr = s.pc ∧ word = s.fetch ∧ k.cause s word

/-- The invariant of the machine. -/
structure State.Inv (s : State) : Prop where
  /-- memory is in canonical form and lists only addresses that exist (20_memory R51) -/
  memWf : s.mem.wf
  /-- SP is 0 to 16 (10_state R24) -/
  spLegal : s.sp.toNat ≤ 16
  /-- a stack entry was pushed by a CALL that was fetched, so it is at most 4095 (40_step_cycle R92) -/
  returnsLegal : ∀ k : Fin 16, s.stack[k.val].toNat ≤ params.memSize
  /-- PC is at most 0x10FE, the largest sum of Bnnn (40_step_cycle R92) -/
  pcLegal : s.pc.toNat ≤ 0x10FE
  /-- the run state tells the truth (10_state R31) -/
  runTrue : s.runTrue

/-! ### The end of a run (70_reset_and_hazards R211) -/

/-- The clean end: the schedule leads to HALTED. A faulted state is never a final one (60_exceptions R177). -/
def EndsCleanly (events : List Event) (s t : State) : Prop := runEvents events s = .next t ∧ t.run = .halted

/-- The schedule leads to FAULTED with this record. -/
def EndsInFault (events : List Event) (s t : State) (k : FaultKind) (addr : Word) (word : Option Word) : Prop :=
  runEvents events s = .next t ∧ t.run = .faulted k addr word

/-- A running machine whose Step repeats the state: a jump to itself, or Fx0A with no key pressed. -/
def State.repeats (s : State) : Prop := s.run = .running ∧ step s = .next s

end Sys2Proof.Machine
end

