-- ==== Sys2Proof/Certificates/Slice0/Obligations.lean ====
section
/-! DEFINITION. The statements for the provers. In every statement about `exec`, PC of the state before is already
past the instruction (spec 40_step_cycle R94). Words are written out as numbers from the patterns of 30_encoding R74,
not by the encoder. -/

open Sys2Proof Sys2Proof.Machine

namespace Sys2Proof.Claims

/-- The word of a number. -/
abbrev word (n : Nat) : Word := BitVec.ofNat 16 n

/-- The instruction the next Step of s executes. -/
def decodesTo (s : State) (i : Instr) : Prop := ∃ op, s.fetch = some op ∧ decode op = .ok i

/-- i answers a next state in which V[x] holds b and everything else is unchanged. -/
def writesV (i : Instr) (s : State) (x : Reg) (b : Byte) : Prop :=
  ∃ t, exec i s = .next t ∧ t.getV x = b ∧ s.changesOnly t (· = .v x)

/-- i answers a next state in which PC has moved 2 further exactly when c holds, and nothing else has changed. -/
def skipsWhen (i : Instr) (s : State) (c : Prop) : Prop :=
  ∃ t, exec i s = .next t ∧ (c → t.pc = s.pc + 2#16) ∧ (¬ c → t.pc = s.pc) ∧ s.changesOnly t (· = .pc)

/-- i answers a next state that has entered the fault K, the word recorded being op. -/
def faultsWith (i : Instr) (s : State) (k : FaultKind) (op : Nat) : Prop :=
  ∃ t, exec i s = .next t ∧ s.entersFault t k op

/-- i answers a next state in which V[x] holds the result, VF the flag when x is not 15, and everything else is
unchanged; with x = 15 the result, written second, is what VF ends with (42_load_alu R133). -/
def writesFlagThenV (i : Instr) (s : State) (x : Reg) (flag result : Nat) : Prop :=
  ∃ t, exec i s = .next t ∧ (t.getV x).toNat = result ∧ (x ≠ 15 → (t.getV 15).toNat = flag) ∧
    s.changesOnly t (· ∈ [.v x, .v 15])

/-- The words of the table of 30_encoding R80. -/
def illegalByTable (op : Nat) : Bool :=
  (op / 4096 == 5 && op % 16 != 0) ||
  (op / 4096 == 8 && [8, 9, 0xA, 0xB, 0xC, 0xD, 0xF].contains (op % 16)) ||
  (op / 4096 == 9 && op % 16 != 0) ||
  (op / 4096 == 0xE && !([0x9E, 0xA1].contains (op % 256))) ||
  (op / 4096 == 0xF && !([0x07, 0x0A, 0x15, 0x18, 0x1E, 0x29, 0x33, 0x55, 0x65].contains (op % 256)))

/-- The sprite drawn by Dxyn at s has a set bit whose target is pixel p (44_display R151, R153): the sprite mask. -/
def spriteCovers (hw : HWrap) (x y : Reg) (n : Fin 16) (s : State) (p : Nat) : Prop :=
  ∃ r, r < n.val ∧ ∃ c, c < 8 ∧ (s.mem.read (s.i.toNat + r)).getLsbD (7 - c) = true ∧
    target hw ((s.getV x).toNat % 64 + c) ((s.getV y).toNat % 32 + r) = some p

/-- The bytes of the sprite exist (44_display R151): with n = 0 there are none. -/
def spriteInBounds (n : Fin 16) (s : State) : Prop := n.val = 0 ∨ s.i.toNat + n.val - 1 < params.memSize

/-- From s to t the sprite mask has been XORed into the buffer, VF is 1 exactly when the mask met a pixel that was on, and
nothing else has changed (44_display R151, R153). -/
def xorsMask (hw : HWrap) (x y : Reg) (n : Fin 16) (s t : State) : Prop :=
  (∀ p, spriteCovers hw x y n s p → t.fb.pixel p = !s.fb.pixel p) ∧
  ((∃ p, spriteCovers hw x y n s p ∧ s.fb.pixel p = true) → t.getV 15 = 1#8) ∧
  ((¬ ∃ p, spriteCovers hw x y n s p ∧ s.fb.pixel p = true) → t.getV 15 = 0#8) ∧
  s.changesOnly t (fun c => c = .v 15 ∨ ∃ p, spriteCovers hw x y n s p ∧ c = .pixel p)

end Sys2Proof.Claims

open Sys2Proof.Claims

/-! ### Encoding and decoding -/

/-- Legal words of every one of the sixteen families, written out bit by bit from 30_encoding R72 and R74 (the decode
table of 95_test_vectors 2.1 and the rules' examples), decode to their instructions; the word 8AB8 is refused under the
name of its family. -/
def Obligations.SampleWordsDecode : Prop :=
  (decode 0b0000000000000000 = .ok (.sys 0x000) ∧ decode 0b0000000011100000 = .ok .cls ∧
    decode 0b0000000111100000 = .ok (.sys 0x1E0) ∧ decode 0b0001111111111111 = .ok (.jp 0xFFF) ∧
    decode 0b0010001100000000 = .ok (.call 0x300) ∧ decode 0b0011001100101010 = .ok (.seByte 3 0x2A) ∧
    decode 0b0100001100101010 = .ok (.sneByte 3 0x2A) ∧ decode 0b0101000100100000 = .ok (.seReg 1 2) ∧
    decode 0b0110111100000000 = .ok (.ldByte 15 0) ∧ decode 0b0111000000000011 = .ok (.addByte 0 3)) ∧
  (decode 0b1000101010110111 = .ok (.subnReg 10 11) ∧ decode 0b1001101010110000 = .ok (.sneReg 10 11) ∧
    decode 0b1010001100000000 = .ok (.ldI 0x300) ∧ decode 0b1011001100000000 = .ok (.jpV0 0x300) ∧
    decode 0b1100001100001111 = .ok (.rnd 3 0x0F) ∧ decode 0b1101010110100111 = .ok (.drw 5 10 7) ∧
    decode 0b1110000110011110 = .ok (.skp 1) ∧ decode 0b1111111101100101 = .ok (.ldVxMem 15)) ∧
  decode 0b1000101010111000 = .error (.illegal8 0x8AB8)

/-- 30_encoding R80 and 60_exceptions R171: the illegal words are exactly those of the table; field x does not matter,
so a family has 16 times as many of them as it has illegal low bytes, which gives the table's counts, 17488 of 65536 in
all; and a Step that fetches one enters UnknownOpcode, changing nothing but run. -/
def Obligations.IllegalWordsAreTheTableAndFault : Prop :=
  (∀ op : Word, (∃ e, decode op = .error e) ↔ illegalByTable op.toNat = true) ∧
  (∀ p x kk : Nat, p < 16 → x < 16 → kk < 256 →
    illegalByTable (4096 * p + 256 * x + kk) = illegalByTable (4096 * p + kk)) ∧
  (∀ p, p < 16 → 16 * ((List.range 256).countP fun kk => illegalByTable (4096 * p + kk)) =
    if p = 5 then 3840 else if p = 8 then 1792 else if p = 9 then 3840 else if p = 0xE then 4064
    else if p = 0xF then 3952 else 0) ∧
  3840 + 1792 + 3840 + 4064 + 3952 = 17488 ∧ 65536 - 17488 = 48048 ∧
  ∀ (s : State) (op : Word), s.run = .running → s.fetch = some op → illegalByTable op.toNat = true →
    ∃ t, step s = .next t ∧ t.run = .faulted .unknownOpcode s.pc (some op) ∧ s.changesOnly t (· = .run)

/-- 30_encoding R75 to R79: the secondary dispatch of families 0, 5, 8, 9, E and F; SYS does nothing. For families 0, 5
and 9 this is the spec's decision D10 (log 18). -/
def Obligations.FamiliesSubDispatch : Prop :=
  (∀ nnn : Addr12, decode (word nnn.toNat) =
    if nnn = 0x0E0 then .ok .cls else if nnn = 0x0EE then .ok .ret else if nnn = 0x0FD then .ok .exit
    else .ok (.sys nnn)) ∧
  (∀ (nnn : Addr12) (s : State), exec (.sys nnn) s = .next s) ∧
  (∀ x y n : Fin 16, decode (word (0x8000 + 256 * x + 16 * y + n)) =
    if n = 0 then .ok (.ldReg x y) else if n = 1 then .ok (.orReg x y) else if n = 2 then .ok (.andReg x y)
    else if n = 3 then .ok (.xorReg x y) else if n = 4 then .ok (.addReg x y) else if n = 5 then .ok (.subReg x y)
    else if n = 6 then .ok (.shr x y) else if n = 7 then .ok (.subnReg x y) else if n = 0xE then .ok (.shl x y)
    else .error (.illegal8 (word (0x8000 + 256 * x + 16 * y + n)))) ∧
  (∀ (x : Reg) (kk : Byte), decode (word (0xE000 + 256 * x + kk.toNat)) =
    if kk = 0x9E then .ok (.skp x) else if kk = 0xA1 then .ok (.sknp x)
    else .error (.illegalE (word (0xE000 + 256 * x + kk.toNat)))) ∧
  (∀ (x : Reg) (kk : Byte), decode (word (0xF000 + 256 * x + kk.toNat)) =
    if kk = 0x07 then .ok (.ldVxDT x) else if kk = 0x0A then .ok (.ldVxK x) else if kk = 0x15 then .ok (.ldDTVx x)
    else if kk = 0x18 then .ok (.ldSTVx x) else if kk = 0x1E then .ok (.addIVx x) else if kk = 0x29 then .ok (.ldFVx x)
    else if kk = 0x33 then .ok (.ldBVx x) else if kk = 0x55 then .ok (.ldMemVx x) else if kk = 0x65 then .ok (.ldVxMem x)
    else .error (.illegalF (word (0xF000 + 256 * x + kk.toNat)))) ∧
  (∀ x y n : Fin 16, decode (word (0x5000 + 256 * x + 16 * y + n)) =
    if n = 0 then .ok (.seReg x y) else .error (.illegal5 (word (0x5000 + 256 * x + 16 * y + n)))) ∧
  (∀ x y n : Fin 16, decode (word (0x9000 + 256 * x + 16 * y + n)) =
    if n = 0 then .ok (.sneReg x y) else .error (.illegal9 (word (0x9000 + 256 * x + 16 * y + n))))

/-- Decoding the word of a well-formed instruction gives it back, with every operand (30_encoding R72, R74). -/
def Obligations.DecodeOfEncode : Prop := ∀ i : Instr, i.wf = true → decode (encode i) = .ok i

/-- A legal word has one meaning: the instruction it decodes to is well-formed and encodes to that very word, ignored
fields included (30_encoding R74, R82, R86). -/
def Obligations.EncodeOfDecode : Prop :=
  ∀ (op : Word) (i : Instr), decode op = .ok i → i.wf = true ∧ encode i = op

/-- An instruction is two bytes, the high byte first, and decoding leaves the bytes after it (30_encoding R70,
20_memory R53). -/
def Obligations.BytesOfInstructionDecode : Prop :=
  ∀ (i : Instr) (rest : List Byte), i.wf = true →
    ∃ b0 b1 : Byte, encodeBytes i = [b0, b1] ∧ (encode i).toNat = 256 * b0.toNat + b1.toNat ∧
      decodeBytes (b0 :: b1 :: rest) = .ok (i, rest)

/-- The assembler of 30_encoding R84 reads back what the disassembler writes. R84 gives no disassembler: this one, which
writes the y field of SHR and SHL only when it is not 0, is the model's choice (log 19). -/
def Obligations.AssembleOfDisassemble : Prop :=
  ∀ i : Instr, i.wf = true → assemble (disassemble i).1 (disassemble i).2 = some i

/-- 00_scope R11: 0x00FD is EXIT with `HAS_EXIT` and SYS without; no other word depends on it. The value true is the
spec's default (D11, log 7). -/
def Obligations.HasExitSwitch : Prop :=
  params.hasExit = true ∧ decodeWith true 0x00FD = .ok .exit ∧ decodeWith false 0x00FD = .ok (.sys 0x0FD) ∧
  ∀ (b : Bool) (op : Word), op ≠ 0x00FD → decodeWith b op = decode op

/-! ### The Step -/

/-- 20_memory R53 and 40_step_cycle R91: fetch succeeds exactly when PC ≤ 4093, at any parity of PC, and is
big-endian; otherwise the Step enters MemoryOutOfBounds with addr = PC and no opcode (the spec's decision D24). -/
def Obligations.FetchIsBigEndianAndBounded : Prop :=
  ∀ s : State,
    (s.pc.toNat ≤ 4093 → ∃ op, s.fetch = some op ∧
      op.toNat = 256 * (s.mem.read s.pc.toNat).toNat + (s.mem.read (s.pc.toNat + 1)).toNat) ∧
    (s.pc.toNat + 1 ≥ params.memSize → s.fetch = none) ∧ (s.pc.toNat ≤ 4093 ↔ s.pc.toNat + 1 < params.memSize) ∧
    (s.run = .running → s.pc.toNat + 1 ≥ params.memSize →
      ∃ t, step s = .next t ∧ t.run = .faulted .memoryOutOfBounds s.pc none ∧ s.changesOnly t (· = .run))

/-- The Step runs the decoded instruction: when the two bytes at PC are the word of i, step is exec of i with PC past
them (40_step_cycle R90, R92, R94). -/
def Obligations.StepRunsTheDecodedInstruction : Prop :=
  ∀ (s : State) (b0 b1 : Byte) (i : Instr), s.run = .running → s.pc.toNat + 1 < params.memSize →
    s.mem.read s.pc.toNat = b0 → s.mem.read (s.pc.toNat + 1) = b1 →
    decode (word (256 * b0.toNat + b1.toNat)) = .ok i → step s = exec i (s.setPC (s.pc + 2#16))

/-- While run is not RUNNING, Step and Tick change nothing and the key events change only the latch; only Reset leaves
the state (10_state R31, 60_exceptions R178, R190). -/
def Obligations.StoppedMachineIsFrozen : Prop :=
  ∀ s : State, s.run ≠ .running →
    applyEvent .step s = .next s ∧ applyEvent .tick s = .next s ∧
    (∀ (e : Event) (t : State), applyEvent e s = .next t → t.run = s.run ∨ e = .reset) ∧
    (∀ (k : Key) (t : State), applyEvent (.keySet k) s = .next t ∨ applyEvent (.keyClear k) s = .next t →
      s.changesOnly t (· = .key k))

/-- 40_step_cycle R96, 60_exceptions R177: a Step that faults changes nothing but run, which records the address of
the failing instruction and its word, none where it could not be fetched; with `TIMER_PER_STEP` a Step that faulted does
not touch the timers either. For the kinds other than UnknownOpcode this is the spec's decision D12 (log 18). -/
def Obligations.FaultingStepIsPrecise : Prop :=
  ∀ (s t : State) (k : FaultKind) (addr : Word) (w : Option Word), s.run = .running → step s = .next t →
    t.run = .faulted k addr w →
      addr = s.pc ∧ w = s.fetch ∧ s.changesOnly t (· = .run) ∧ finishStep true (.next t) = .next t

/-- 60_exceptions R170: the runtime faults are four, with codes 1 to 4, and a Step raises each exactly for its cause:
an illegal word, CALL at SP ≥ 16, RET at SP = 0, a fetch or an access of Dxyn, Fx33, Fx55, Fx65 past memory; it records
PC and the word fetched, and nothing but run changes. Codes and preciseness are the spec's decision D12 (log 18). -/
def Obligations.FaultsExactlyForTheirCauses : Prop :=
  (∀ k : FaultKind, k = .unknownOpcode ∧ k.code = 1 ∨ k = .stackOverflow ∧ k.code = 2 ∨
    k = .stackUnderflow ∧ k.code = 3 ∨ k = .memoryOutOfBounds ∧ k.code = 4) ∧
  ∀ (s t : State) (k : FaultKind), s.run = .running → step s = .next t →
    ((∃ addr w, t.run = .faulted k addr w) → k.cause s s.fetch) ∧
    (k.cause s s.fetch → t.run = .faulted k s.pc s.fetch ∧ s.changesOnly t (· = .run))

/-- HALTED is entered exactly by a Step that fetches 0x00FD (41_control_flow R102, 60_exceptions R190). This rests on
`HAS_EXIT` = true and on HALTED as the rendering of termination, both the spec's decision D11 (log 7). -/
def Obligations.OnlyExitHalts : Prop :=
  ∀ s t : State, s.run = .running → step s = .next t → (t.run = .halted ↔ s.fetch = some 0x00FD#16)

/-- The model stops on nothing: every Step of a state whose SP is legal answers a next state (log 11). -/
def Obligations.StepAlwaysAnswersNext : Prop := ∀ s : State, s.sp.toNat ≤ 16 → ∃ t, step s = .next t

/-- 00_scope R8 and 40_step_cycle R95: `TIMER_PER_STEP` is false, so a Step ends as execute leaves it; with true a Step
that leaves the machine running ends with one Tick, and one that faulted or halted does not. -/
def Obligations.TimerPerStepSwitch : Prop :=
  params.timerPerStep = false ∧ (∀ o, finishStep false o = o) ∧
  (∀ s : State, s.run = .running → ∃ t, finishStep true (.next s) = .next t ∧
    t.dt.toNat = s.dt.toNat - 1 ∧ t.st.toNat = s.st.toNat - 1 ∧ s.changesOnly t (· ∈ [.dt, .st])) ∧
  (∀ s : State, s.run ≠ .running → finishStep true (.next s) = .next s)

/-! ### Invariants -/

/-- The state after reset meets the invariant. -/
def Obligations.InvariantHoldsAtReset : Prop := State.reset.Inv

/-- Every Step keeps the invariant: canonical memory, SP ≤ 16, return addresses at most 4095, PC at most 0x10FE, and a
run state that tells the truth (10_state R24, R31; 40_step_cycle R92). -/
def Obligations.StepKeepsInvariant : Prop := ∀ s t : State, s.Inv → step s = .next t → t.Inv

/-- Under every schedule of Steps, Ticks, key events and Resets the machine never stops without a next state and keeps
the invariant; so does LoadROM where it is allowed (00_scope R4; log 12, log 13). -/
def Obligations.RunsNeverStopAndKeepInvariant : Prop :=
  (∀ (events : List Event) (s : State), s.Inv → (∀ bytes, Event.loadRom bytes ∉ events) →
    ∃ t, runEvents events s = .next t ∧ t.Inv) ∧
  ∀ (bytes : List Byte) (s t : State), s.Inv → applyEvent (.loadRom bytes) s = .next t → t.Inv

/-! ### Reset, ROM, timers, keys -/

/-- 70_reset_and_hazards R200, 10_state R33: what Reset leaves, whatever the state before; State.reset is that state.
Every zero is the spec's own choice D18 (log 9). -/
def Obligations.ResetState : Prop :=
  (∀ s : State, ∃ t, applyEvent .reset s = .next t ∧
    (∀ x, t.getV x = 0#8) ∧ t.i = 0#16 ∧ t.sp = 0#16 ∧ (∀ k : Fin 16, t.stack[k.val] = 0#16) ∧
    t.dt = 0#8 ∧ t.st = 0#8 ∧ (∀ p, t.fb.pixel p = false) ∧ (∀ k, t.keyDown k = false) ∧
    (∀ a, a < 80 → t.mem.read a = params.font.getD a 0#8) ∧ (∀ a, 80 ≤ a → t.mem.read a = 0#8) ∧
    t.pc = 0x200#16 ∧ t.run = .running) ∧
  applyEvent .reset State.reset = .next State.reset

/-- LoadROM after Reset (70_reset_and_hazards R201, R202): at most 3583 bytes are copied to 0x200 upward and nothing
else changes; more are refused, and so is a machine that has run (the model's choice, log 13). -/
def Obligations.LoadRomImage : Prop :=
  (∀ (s : State) (bytes : List Byte), s.justReset = true → bytes.length ≤ 3583 →
    ∃ t, applyEvent (.loadRom bytes) s = .next t ∧
      (∀ k, k < bytes.length → t.mem.read (0x200 + k) = bytes.getD k 0) ∧
      s.changesOnly t (fun c => ∃ k, k < bytes.length ∧ c = .mem (0x200 + k))) ∧
  (∀ (s : State) (bytes : List Byte), 3583 < bytes.length → applyEvent (.loadRom bytes) s = .refused .romTooLarge) ∧
  (∀ (s : State) (bytes : List Byte), bytes.length ≤ 3583 → s.justReset = false →
    applyEvent (.loadRom bytes) s = .refused .loadRomNotAfterReset)

/-- 60_exceptions R182: while RUNNING, Tick takes 1 from each timer that is not 0; otherwise it does nothing (the spec's
decision D23). With `TIMER_PER_STEP` a Step ends with that same Tick (D3, log 4). -/
def Obligations.TickDecrementsBothTimers : Prop :=
  ∀ s : State,
    (s.run = .running → ∃ t, applyEvent .tick s = .next t ∧ t.dt.toNat = s.dt.toNat - 1 ∧
      t.st.toNat = s.st.toNat - 1 ∧ s.changesOnly t (· ∈ [.dt, .st]) ∧ finishStep true (.next s) = .next t) ∧
    (s.run ≠ .running → applyEvent .tick s = .next s)

/-- 60_exceptions R185: KeySet and KeyClear write one latch bit in every run state, writing it with the value it has
changes nothing, and a press and release with no Step between them leave no trace. -/
def Obligations.KeyEventsWriteOneLatchBit : Prop :=
  ∀ (s : State) (k : Key),
    (∃ t, applyEvent (.keySet k) s = .next t ∧ t.keyDown k = true ∧ s.changesOnly t (· = .key k) ∧
      (s.keyDown k = true → t = s)) ∧
    (∃ t, applyEvent (.keyClear k) s = .next t ∧ t.keyDown k = false ∧ s.changesOnly t (· = .key k) ∧
      (s.keyDown k = false → t = s)) ∧
    (s.keyDown k = false → runEvents [.keySet k, .keyClear k] s = .next s)

/-! ### Memory -/

/-- MemRead and MemWrite (20_memory R51, R52): the whole range is checked on unbounded integers first, then the bytes
are read or stored ascending and no other byte changes. -/
def Obligations.MemoryPrimitives : Prop :=
  ∀ (s : State) (addr : Nat) (bytes : List Byte), s.mem.wf → bytes ≠ [] →
    (addr + bytes.length - 1 ≥ params.memSize →
      s.memWrite addr bytes = none ∧ s.memRead addr bytes.length = none) ∧
    (addr + bytes.length - 1 < params.memSize →
      s.memRead addr bytes.length = some ((List.range bytes.length).map fun k => s.mem.read (addr + k)) ∧
      ∃ t, s.memWrite addr bytes = some t ∧
        (∀ k, k < bytes.length → t.mem.read (addr + k) = bytes.getD k 0) ∧
        s.changesOnly t (fun c => ∃ k, k < bytes.length ∧ c = .mem (addr + k)))

/-- Equal memories are equal data: two canonical memories that read alike at every address that exists are the same
list (log 10). -/
def Obligations.CanonicalMemoriesThatReadAlikeAreEqual : Prop :=
  ∀ m m' : Memory, m.wf → m'.wf → (∀ a, a < params.memSize → m.read a = m'.read a) → m = m'

/-- A store is visible to the next fetch (20_memory R54; R62, the spec's decision D26, log 18): after Fx55 the registers
k and k + 1 it stored are the word fetched at I + k. -/
def Obligations.StoredBytesAreFetched : Prop :=
  ∀ (s : State) (x k k' : Reg), s.mem.wf → k.val + 1 = k'.val → k' ≤ x → s.i.toNat + x.val < params.memSize →
    ∃ t, exec (.ldMemVx x) s = .next t ∧
      (t.setPC (word (s.i.toNat + k.val))).fetch = some (word (256 * (s.getV k).toNat + (s.getV k').toNat))

/-! ### Control flow (41_control_flow) -/

/-- 41_control_flow R100: every word of family 0 but the three named ones is SYS, and SYS does nothing. -/
def Obligations.SysDoesNothing : Prop :=
  (∀ nnn : Addr12, nnn ≠ 0x0E0 → nnn ≠ 0x0EE → nnn ≠ 0x0FD → decode (word nnn.toNat) = .ok (.sys nnn)) ∧
  decodeWith false 0x00FD = .ok (.sys 0x0FD) ∧
  ∀ (nnn : Addr12) (s : State), exec (.sys nnn) s = .next s

/-- 41_control_flow R101: RET pops the entry the new SP indexes, which keeps its value; all 16 bits go to PC unchecked,
and one at or above `MEM_SIZE` − 1 is what the next fetch faults on; at SP = 0 it enters StackUnderflow. -/
def Obligations.RetPopsTheReturnAddress : Prop :=
  decode 0x00EE = .ok .ret ∧
  (∀ (s : State) (k : Fin 16), s.sp.toNat = k.val + 1 →
    ∃ t, exec .ret s = .next t ∧ t.sp.toNat = k.val ∧ t.pc = s.stack[k.val] ∧
      (s.stack[k.val].toNat ≥ params.memSize - 1 → t.fetch = none) ∧ s.changesOnly t (· ∈ [.sp, .pc])) ∧
  ∀ s : State, s.sp = 0#16 → faultsWith .ret s .stackUnderflow 0x00EE

/-- 41_control_flow R102: EXIT sets run to HALTED and nothing else, PC staying past it; from there Step and Tick do
nothing, and with `TIMER_PER_STEP` the EXIT Step itself does not decrement the timers. -/
def Obligations.ExitHaltsTheMachine : Prop :=
  decode 0x00FD = .ok .exit ∧
  ∀ s : State, ∃ t, exec .exit s = .next t ∧ t.run = .halted ∧ s.changesOnly t (· = .run) ∧
    step t = .next t ∧ t.tick = t ∧ finishStep true (exec .exit s) = .next t

/-- 41_control_flow R103 and R109: JP sets PC to nnn, JP V0 to the exact sum V0 + nnn, neither of them faulting; from
4094 on the next fetch faults; a jump to itself repeats the state. -/
def Obligations.JumpsSetPC : Prop :=
  (∀ nnn : Addr12, decode (word (0x1000 + nnn.toNat)) = .ok (.jp nnn) ∧
    decode (word (0xB000 + nnn.toNat)) = .ok (.jpV0 nnn)) ∧
  (∀ (nnn : Addr12) (s : State),
    (∃ t, exec (.jp nnn) s = .next t ∧ t.pc.toNat = nnn.toNat ∧ (nnn.toNat ≥ 4094 → t.fetch = none) ∧
      s.changesOnly t (· = .pc)) ∧
    (∃ t, exec (.jpV0 nnn) s = .next t ∧ t.pc.toNat = (s.getV 0).toNat + nnn.toNat ∧
      ((s.getV 0).toNat + nnn.toNat ≥ 4094 → t.fetch = none) ∧ s.changesOnly t (· = .pc))) ∧
  ∀ (nnn : Addr12) (s : State), s.run = .running → s.pc.toNat = nnn.toNat → s.fetch = some (word (0x1000 + nnn.toNat)) →
    step s = .next s

/-- 41_control_flow R104: CALL pushes the address after it and jumps, to a target of 4094 or 4095 too, on which the next
fetch faults; the 16th nested call succeeds and the 17th enters StackOverflow. -/
def Obligations.CallPushesTheReturnAddress : Prop :=
  (∀ nnn : Addr12, decode (word (0x2000 + nnn.toNat)) = .ok (.call nnn)) ∧
  (∀ (nnn : Addr12) (s : State) (k : Fin 16), s.sp.toNat = k.val →
    ∃ t, exec (.call nnn) s = .next t ∧ t.stack[k.val] = s.pc ∧ t.sp.toNat = k.val + 1 ∧ t.pc.toNat = nnn.toNat ∧
      (nnn.toNat ≥ 4094 → t.fetch = none) ∧ s.changesOnly t (· ∈ [.stack k, .sp, .pc])) ∧
  ∀ (nnn : Addr12) (s : State), s.sp.toNat ≥ 16 → faultsWith (.call nnn) s .stackOverflow (0x2000 + nnn.toNat)

/-- A subroutine that brings SP back to where the CALL left it and has not overwritten its return address returns to the
address after the CALL, with the SP from before it, whatever else it did, calls of its own among it (41_control_flow R101,
R104; 95_test_vectors S5). -/
def Obligations.RetUndoesCall : Prop :=
  ∀ (nnn : Addr12) (s : State) (k : Fin 16), s.sp.toNat = k.val →
    ∃ t, exec (.call nnn) s = .next t ∧
      ∀ u : State, u.sp = t.sp → u.stack[k.val] = t.stack[k.val] →
        ∃ w, exec .ret u = .next w ∧ w.pc = s.pc ∧ w.sp = s.sp

/-- 41_control_flow R105 to R108: the four skips on register values. -/
def Obligations.RegisterSkips : Prop :=
  (∀ (x : Reg) (kk : Byte), decode (word (0x3000 + 256 * x + kk.toNat)) = .ok (.seByte x kk) ∧
    decode (word (0x4000 + 256 * x + kk.toNat)) = .ok (.sneByte x kk)) ∧
  (∀ x y : Reg, decode (word (0x5000 + 256 * x + 16 * y)) = .ok (.seReg x y) ∧
    decode (word (0x9000 + 256 * x + 16 * y)) = .ok (.sneReg x y)) ∧
  (∀ (x : Reg) (kk : Byte) (s : State), skipsWhen (.seByte x kk) s ((s.getV x).toNat = kk.toNat) ∧
    skipsWhen (.sneByte x kk) s ((s.getV x).toNat ≠ kk.toNat)) ∧
  ∀ (x y : Reg) (s : State), skipsWhen (.seReg x y) s ((s.getV x).toNat = (s.getV y).toNat) ∧
    skipsWhen (.sneReg x y) s ((s.getV x).toNat ≠ (s.getV y).toNat)

/-! ### Loads and ALU (42_load_alu) -/

/-- 42_load_alu R120 to R122: the two loads and ADD of a byte, which wraps and writes no flag. -/
def Obligations.LoadsAndAddByte : Prop :=
  (∀ (x : Reg) (kk : Byte), decode (word (0x6000 + 256 * x + kk.toNat)) = .ok (.ldByte x kk) ∧
    decode (word (0x7000 + 256 * x + kk.toNat)) = .ok (.addByte x kk)) ∧
  (∀ x y : Reg, decode (word (0x8000 + 256 * x + 16 * y)) = .ok (.ldReg x y)) ∧
  ∀ (x y : Reg) (kk : Byte) (s : State),
    writesV (.ldByte x kk) s x kk ∧ writesV (.ldReg x y) s x (s.getV y) ∧
    writesV (.addByte x kk) s x (BitVec.ofNat 8 (((s.getV x).toNat + kk.toNat) % 256))

/-- 42_load_alu R123 to R125: OR, AND and XOR bit by bit, VF not written unless it is V[x]. -/
def Obligations.LogicBitByBit : Prop :=
  (∀ x y : Reg, decode (word (0x8001 + 256 * x + 16 * y)) = .ok (.orReg x y) ∧
    decode (word (0x8002 + 256 * x + 16 * y)) = .ok (.andReg x y) ∧
    decode (word (0x8003 + 256 * x + 16 * y)) = .ok (.xorReg x y)) ∧
  ∀ (x y : Reg) (s : State), ∃ o a e : Byte,
    writesV (.orReg x y) s x o ∧ writesV (.andReg x y) s x a ∧ writesV (.xorReg x y) s x e ∧
    ∀ j, j < 8 → o.getLsbD j = ((s.getV x).getLsbD j || (s.getV y).getLsbD j) ∧
      a.getLsbD j = ((s.getV x).getLsbD j && (s.getV y).getLsbD j) ∧
      e.getLsbD j = ((s.getV x).getLsbD j != (s.getV y).getLsbD j)

/-- 42_load_alu R126: ADD, with VF = carry; with x = 15 the sum is what VF ends with. -/
def Obligations.AddWritesCarryThenSum : Prop :=
  (∀ x y : Reg, decode (word (0x8004 + 256 * x + 16 * y)) = .ok (.addReg x y)) ∧
  ∀ (x y : Reg) (s : State),
    writesFlagThenV (.addReg x y) s x (if (s.getV x).toNat + (s.getV y).toNat > 255 then 1 else 0)
      (((s.getV x).toNat + (s.getV y).toNat) % 256)

/-- 42_load_alu R127 and R129: SUB and SUBN, with VF = NOT borrow; ADD of the same operands undoes SUB when Vy is
unchanged by it and x ≠ y. -/
def Obligations.SubtractionsWriteNotBorrow : Prop :=
  (∀ x y : Reg, decode (word (0x8005 + 256 * x + 16 * y)) = .ok (.subReg x y) ∧
    decode (word (0x8007 + 256 * x + 16 * y)) = .ok (.subnReg x y)) ∧
  (∀ (x y : Reg) (s : State),
    writesFlagThenV (.subReg x y) s x (if (s.getV x).toNat ≥ (s.getV y).toNat then 1 else 0)
      ((256 + (s.getV x).toNat - (s.getV y).toNat) % 256) ∧
    writesFlagThenV (.subnReg x y) s x (if (s.getV y).toNat ≥ (s.getV x).toNat then 1 else 0)
      ((256 + (s.getV y).toNat - (s.getV x).toNat) % 256)) ∧
  ∀ (x y : Reg) (s : State), x ≠ y → y ≠ 15 →
    ∃ t u, exec (.subReg x y) s = .next t ∧ exec (.addReg x y) t = .next u ∧ u.getV x = s.getV x ∧
      u.getV y = s.getV y

/-- 42_load_alu R128 and R130: SHR and SHL shift V[x] by one, VF receiving the bit shifted out; y is ignored. With
x = 15 the second statement reads the VF just written: SHR ends 0, SHL ends twice the old bit 7 (R133, the spec's
decision D9, log 18). -/
def Obligations.ShiftsWriteTheBitShiftedOut : Prop :=
  (∀ x y : Reg, decode (word (0x8006 + 256 * x + 16 * y)) = .ok (.shr x y) ∧
    decode (word (0x800E + 256 * x + 16 * y)) = .ok (.shl x y)) ∧
  ∀ (x y : Reg) (s : State),
    writesFlagThenV (.shr x y) s x ((s.getV x).toNat % 2) (if x = 15 then 0 else (s.getV x).toNat / 2) ∧
    writesFlagThenV (.shl x y) s x ((s.getV x).toNat / 128)
      (if x = 15 then 2 * ((s.getV x).toNat / 128) else (s.getV x).toNat * 2 % 256)

/-- 42_load_alu R131: RND writes the byte the oracle answers, masked by kk; all a program can rely on is that no bit
outside kk is set. The byte is a free value, so the statement holds for every sequence of bytes; that the n-th draw is
`Config.randomByte n` with n counted in `rndDraws` is the model's choice (log 8). -/
def Obligations.RandomByteIsMasked : Prop :=
  (∀ (x : Reg) (kk : Byte), decode (word (0xC000 + 256 * x + kk.toNat)) = .ok (.rnd x kk)) ∧
  ∀ (x : Reg) (kk : Byte) (s : State),
    ∃ t r, exec (.rnd x kk) s = .next t ∧ r = Config.randomByte s.rndDraws ∧ t.getV x = r &&& kk ∧
      (∀ j, kk.getLsbD j = false → (t.getV x).getLsbD j = false) ∧ t.rndDraws = s.rndDraws + 1 ∧
      s.changesOnly t (· ∈ [.v x, .draws])

/-! ### Index register and memory (43_index_memory) -/

/-- 43_index_memory R140 to R142: I <- nnn; I <- I + V[x] modulo 65536; I <- V[x]·5; no flag. That V[x] above 15 is not
masked is the spec's decision D28 (log 18). -/
def Obligations.IndexRegisterWrites : Prop :=
  (∀ nnn : Addr12, decode (word (0xA000 + nnn.toNat)) = .ok (.ldI nnn)) ∧
  (∀ x : Reg, decode (word (0xF01E + 256 * x)) = .ok (.addIVx x) ∧ decode (word (0xF029 + 256 * x)) = .ok (.ldFVx x)) ∧
  ∀ (nnn : Addr12) (x : Reg) (s : State),
    (∃ t, exec (.ldI nnn) s = .next t ∧ t.i.toNat = nnn.toNat ∧ s.changesOnly t (· = .i)) ∧
    (∃ t, exec (.addIVx x) s = .next t ∧ t.i.toNat = (s.i.toNat + (s.getV x).toNat) % 65536 ∧
      s.changesOnly t (· = .i)) ∧
    (∃ t, exec (.ldFVx x) s = .next t ∧ t.i.toNat = (s.getV x).toNat * 5 ∧ s.changesOnly t (· = .i))

/-- 43_index_memory R143: the BCD encoder stores the three decimal digits of V[x] at I, I + 1, I + 2; past memory it
enters MemoryOutOfBounds and stores none. -/
def Obligations.BcdStoresTheDecimalDigits : Prop :=
  (∀ x : Reg, decode (word (0xF033 + 256 * x)) = .ok (.ldBVx x)) ∧
  (∀ (x : Reg) (s : State), s.mem.wf → s.i.toNat + 2 < params.memSize →
    ∃ t h d o, exec (.ldBVx x) s = .next t ∧
      (t.mem.read s.i.toNat).toNat = h ∧ (t.mem.read (s.i.toNat + 1)).toNat = d ∧
      (t.mem.read (s.i.toNat + 2)).toNat = o ∧
      100 * h + 10 * d + o = (s.getV x).toNat ∧ h ≤ 2 ∧ d ≤ 9 ∧ o ≤ 9 ∧
      s.changesOnly t (· ∈ [.mem s.i.toNat, .mem (s.i.toNat + 1), .mem (s.i.toNat + 2)])) ∧
  ∀ (x : Reg) (s : State), s.i.toNat + 2 ≥ params.memSize →
    faultsWith (.ldBVx x) s .memoryOutOfBounds (0xF033 + 256 * x)

/-- 43_index_memory R144: the register dump stores V[0] to V[x] at I to I + x and advances I by x + 1; past memory it
enters MemoryOutOfBounds and stores nothing. -/
def Obligations.RegisterDump : Prop :=
  (∀ x : Reg, decode (word (0xF055 + 256 * x)) = .ok (.ldMemVx x)) ∧
  (∀ (x : Reg) (s : State), s.mem.wf → s.i.toNat + x.val < params.memSize →
    ∃ t, exec (.ldMemVx x) s = .next t ∧ (∀ k : Reg, k ≤ x → t.mem.read (s.i.toNat + k.val) = s.getV k) ∧
      t.i.toNat = (s.i.toNat + x.val + 1) % 65536 ∧
      s.changesOnly t (fun c => c = .i ∨ ∃ k : Reg, k ≤ x ∧ c = .mem (s.i.toNat + k.val))) ∧
  ∀ (x : Reg) (s : State), s.i.toNat + x.val ≥ params.memSize →
    faultsWith (.ldMemVx x) s .memoryOutOfBounds (0xF055 + 256 * x)

/-- 43_index_memory R145: the register load fills V[0] to V[x] from I to I + x and advances I by x + 1; past memory it
enters MemoryOutOfBounds and loads nothing. -/
def Obligations.RegisterLoad : Prop :=
  (∀ x : Reg, decode (word (0xF065 + 256 * x)) = .ok (.ldVxMem x)) ∧
  (∀ (x : Reg) (s : State), s.i.toNat + x.val < params.memSize →
    ∃ t, exec (.ldVxMem x) s = .next t ∧ (∀ k : Reg, k ≤ x → t.getV k = s.mem.read (s.i.toNat + k.val)) ∧
      t.i.toNat = (s.i.toNat + x.val + 1) % 65536 ∧
      s.changesOnly t (fun c => c = .i ∨ ∃ k : Reg, k ≤ x ∧ c = .v k)) ∧
  ∀ (x : Reg) (s : State), s.i.toNat + x.val ≥ params.memSize →
    faultsWith (.ldVxMem x) s .memoryOutOfBounds (0xF065 + 256 * x)

/-- A load from where a dump stored brings the registers back, whatever they held in between (43_index_memory R144,
R145; 20_memory R60). -/
def Obligations.LoadUndoesDump : Prop :=
  ∀ (x : Reg) (s : State), s.mem.wf → s.i.toNat + x.val < params.memSize →
    ∃ t, exec (.ldMemVx x) s = .next t ∧
      ∀ u : State, u.mem = t.mem → u.i = s.i →
        ∃ w, exec (.ldVxMem x) u = .next w ∧ ∀ k : Reg, k ≤ x → w.getV k = s.getV k

/-! ### Display (44_display) -/

/-- 44_display R150: CLS turns every pixel off and writes nothing else, VF included; on a clear buffer it changes
nothing, and the buffer it leaves is that of a reset machine. -/
def Obligations.ClsClearsTheDisplay : Prop :=
  decode 0x00E0 = .ok .cls ∧
  ∀ s : State, ∃ t, exec .cls s = .next t ∧ (∀ p, t.fb.pixel p = false) ∧
    s.changesOnly t (fun c => ∃ p, p < 2048 ∧ c = .pixel p) ∧ t.fb = State.reset.fb ∧
    ((∀ p, p < 2048 → s.fb.pixel p = false) → t = s)

/-- 44_display R152: Target under both values of `DRW_HWRAP`; a pixel past column 63 goes to the row below or stays in
its row, one past row 31 is discarded, the two agree inside columns 0..63, and no index is hit twice in one DRW. The
value NextRow and the discarding are the spec's decisions D4 and D5 (log 5, log 18). -/
def Obligations.TargetsOfSpritePixels : Prop :=
  params.drwHWrap = .nextRow ∧
  (∀ cx cy, target .nextRow cx cy = (if 64 * cy + cx ≤ 2047 then some (64 * cy + cx) else none) ∧
    target .sameRow cx cy = (if cy ≤ 31 then some (64 * cy + cx % 64) else none)) ∧
  (∀ cx cy, cx < 64 → target .nextRow cx cy = target .sameRow cx cy) ∧
  (∀ hw cx cy, 32 ≤ cy → target hw cx cy = none) ∧
  (∀ hw cx cy p, target hw cx cy = some p → p < 2048) ∧
  ∀ (hw : HWrap) (x0 y0 : Nat) (rows : List Byte), x0 < 64 → y0 < 32 → (blitTargets hw x0 y0 rows).Nodup

/-- 44_display R151: the new buffer is the old one XOR the sprite mask, and VF is 1 exactly when the mask meets a pixel
that was on; nothing else changes. This is the scan of R151 in the combinational form that the spec derives from it in
R153, for the `DRW_HWRAP` of the configuration, which `exec` reads, and for both values of it. Sprite bytes past memory
enter MemoryOutOfBounds; n = 0 reads none and cannot fault. Bit 7 leftmost and the reading of VF before it is cleared
are the spec's decisions D6 and D7 (log 18). -/
def Obligations.DrwXorsTheSpriteMask : Prop :=
  (∀ x y n : Fin 16, decode (word (0xD000 + 256 * x + 16 * y + n)) = .ok (.drw x y n)) ∧
  (∀ (x y : Reg) (n : Fin 16) (s : State), spriteInBounds n s →
    ∃ t, exec (.drw x y n) s = .next t ∧ xorsMask params.drwHWrap x y n s t) ∧
  (∀ (hw : HWrap) (x y : Reg) (n : Fin 16) (s : State), spriteInBounds n s →
    ∃ t, drawSprite hw x y n s = .next t ∧ xorsMask hw x y n s t) ∧
  ∀ (x y : Reg) (n : Fin 16) (s : State), ¬ spriteInBounds n s →
    faultsWith (.drw x y n) s .memoryOutOfBounds (0xD000 + 256 * x + 16 * y + n)

/-- Drawing the same sprite twice at the same place restores the screen, and VF is set in the second draw exactly when
the first left a covered pixel on (44_display R151, 95_test_vectors S3), under both values of `DRW_HWRAP`. -/
def Obligations.DrawingTwiceRestoresTheScreen : Prop :=
  ∀ (hw : HWrap) (x y : Reg) (n : Fin 16) (s : State), x ≠ 15 → y ≠ 15 → spriteInBounds n s →
    ∃ t u, drawSprite hw x y n s = .next t ∧ drawSprite hw x y n t = .next u ∧ u.fb = s.fb ∧
      (u.getV 15 = 1#8 ↔ ∃ p, spriteCovers hw x y n s p ∧ t.fb.pixel p = true)

/-! ### Keys and timers (45_keys_timers) -/

/-- 45_keys_timers R160 and R161: SKP and SKNP test the latch bit that the low 4 bits of V[x] name (for V[x] above 15
the spec's decision D16, log 18). -/
def Obligations.KeySkips : Prop :=
  (∀ x : Reg, decode (word (0xE09E + 256 * x)) = .ok (.skp x) ∧ decode (word (0xE0A1 + 256 * x)) = .ok (.sknp x)) ∧
  ∀ (x : Reg) (k : Key) (s : State), (s.getV x).toNat % 16 = k.val →
    skipsWhen (.skp x) s (s.keyDown k = true) ∧ skipsWhen (.sknp x) s (s.keyDown k = false)

/-- 45_keys_timers R162, R164, R165: V[x] <- DT, DT <- V[x], ST <- V[x], the sound being active exactly when V[x] is not
0; with `TIMER_PER_STEP` the read precedes and the write is followed by the Step's own decrement. -/
def Obligations.TimerMoves : Prop :=
  (∀ x : Reg, decode (word (0xF007 + 256 * x)) = .ok (.ldVxDT x) ∧ decode (word (0xF015 + 256 * x)) = .ok (.ldDTVx x) ∧
    decode (word (0xF018 + 256 * x)) = .ok (.ldSTVx x)) ∧
  ∀ (x : Reg) (s : State),
    writesV (.ldVxDT x) s x s.dt ∧
    (∃ t, exec (.ldDTVx x) s = .next t ∧ t.dt = s.getV x ∧ s.changesOnly t (· = .dt)) ∧
    (∃ t, exec (.ldSTVx x) s = .next t ∧ t.st = s.getV x ∧ (t.soundActive = true ↔ s.getV x ≠ 0#8) ∧
      s.changesOnly t (· = .st)) ∧
    (s.run = .running →
      (∃ t, finishStep true (exec (.ldVxDT x) s) = .next t ∧ t.getV x = s.dt ∧ t.dt.toNat = s.dt.toNat - 1) ∧
      (∃ t, finishStep true (exec (.ldDTVx x) s) = .next t ∧ t.dt.toNat = (s.getV x).toNat - 1) ∧
      (∃ t, finishStep true (exec (.ldSTVx x) s) = .next t ∧ t.st.toNat = (s.getV x).toNat - 1))

/-- 45_keys_timers R163: with no key pressed, Fx0A takes PC back and a Step of it leaves the whole state as it found
it, but for the timers with `TIMER_PER_STEP`; with keys pressed it writes the index of the lowest (`KEY_SELECT`,
00_scope R10, the spec's decision D17, log 6) and goes on. -/
def Obligations.WaitForKeyStallsOrReportsTheLowest : Prop :=
  (∀ x : Reg, decode (word (0xF00A + 256 * x)) = .ok (.ldVxK x)) ∧
  (∀ (x : Reg) (s : State), (∀ k, s.keyDown k = false) →
    ∃ t, exec (.ldVxK x) s = .next t ∧ t.pc = s.pc - 2#16 ∧ s.changesOnly t (· = .pc) ∧
      finishStep true (.next t) = .next t.tick) ∧
  (∀ (x : Reg) (s : State), s.run = .running → (∀ k, s.keyDown k = false) → s.fetch = some (word (0xF00A + 256 * x)) →
    step s = .next s) ∧
  ∀ (x : Reg) (s : State) (k : Key), s.keyDown k = true → (∀ j, j < k → s.keyDown j = false) →
    writesV (.ldVxK x) s x (BitVec.ofNat 8 k.val)

/-! ### The whole machine -/

/-- Only the six flag instructions write VF, unless VF is the destination: x = 15 in an instruction that writes V[x]
(10_state R21). -/
def Obligations.OnlyFlagInstructionsWriteVF : Prop :=
  ∀ (i : Instr) (s t : State), exec i s = .next t → t.getV 15 ≠ s.getV 15 →
    (∃ x y, i = .addReg x y ∨ i = .subReg x y ∨ i = .shr x y ∨ i = .subnReg x y ∨ i = .shl x y ∨
      ∃ n, i = .drw x y n) ∨
    (∃ kk, i = .ldByte 15 kk ∨ i = .addByte 15 kk ∨ i = .rnd 15 kk) ∨
    (∃ y, i = .ldReg 15 y ∨ i = .orReg 15 y ∨ i = .andReg 15 y ∨ i = .xorReg 15 y) ∨
    i = .ldVxDT 15 ∨ i = .ldVxK 15 ∨ i = .ldVxMem 15

/-- Which instructions a Step can change each part of the state by (10_state R20 to R31; 60_exceptions R183): V[k] by
those that name it as a destination or write it as the flag, I by five, PC otherwise than by 2 by the jumps, RET, the
skips, Fx0A and a fault, SP by CALL and RET, a stack entry by CALL, memory by Fx33 and Fx55, the display by CLS and DRW,
run by EXIT and a fault, the key latch by none. Each timer is changed by its own load alone because `TIMER_PER_STEP` is
false (the spec's default, D3, log 4); the last clause is about the model's own count of draws (log 8). -/
def Obligations.EachPartHasItsWriters : Prop :=
  params.timerPerStep = false ∧ ∀ s t : State, step s = .next t →
    (∀ k, t.getV k ≠ s.getV k → ∃ i, decodesTo s i ∧ mayWriteV k i = true) ∧
    (t.i ≠ s.i → (∃ nnn, decodesTo s (.ldI nnn)) ∨ ∃ x, decodesTo s (.addIVx x) ∨ decodesTo s (.ldFVx x) ∨
      decodesTo s (.ldMemVx x) ∨ decodesTo s (.ldVxMem x)) ∧
    (t.pc ≠ s.pc → s.run = .running) ∧
    (s.run = .running → t.pc ≠ s.pc + 2#16 →
      (t.pc = s.pc ∧ ((∃ k, t.run = .faulted k s.pc s.fetch) ∨ ∃ x, decodesTo s (.ldVxK x))) ∨
      (t.pc = s.pc + 4#16 ∧ ∃ i, decodesTo s i ∧ isSkip i = true) ∨
      (∃ nnn, decodesTo s (.jp nnn) ∨ decodesTo s (.call nnn) ∨ decodesTo s (.jpV0 nnn)) ∨ decodesTo s .ret) ∧
    (t.sp ≠ s.sp → decodesTo s .ret ∨ ∃ nnn, decodesTo s (.call nnn)) ∧
    (t.stack ≠ s.stack → ∃ nnn, decodesTo s (.call nnn)) ∧
    (t.dt ≠ s.dt → ∃ x, decodesTo s (.ldDTVx x)) ∧
    (t.st ≠ s.st → ∃ x, decodesTo s (.ldSTVx x)) ∧
    (t.mem ≠ s.mem → ∃ x, decodesTo s (.ldBVx x) ∨ decodesTo s (.ldMemVx x)) ∧
    (t.fb ≠ s.fb → decodesTo s .cls ∨ ∃ x y n, decodesTo s (.drw x y n)) ∧
    (∀ k, t.keyDown k = s.keyDown k) ∧
    (t.run ≠ s.run → s.run = .running ∧
      ((decodesTo s .exit ∧ t.run = .halted) ∨ ∃ k, t.run = .faulted k s.pc s.fetch)) ∧
    (t.rndDraws ≠ s.rndDraws → ∃ x kk, decodesTo s (.rnd x kk))

/-- No instruction reads ST (10_state R27): under the same random byte a Step from a state with another ST ends in the
same state but for ST. The byte is the same because both Steps are at the same count of draws (log 8). -/
def Obligations.SoundTimerIsNeverRead : Prop :=
  ∀ (s t : State) (b : Byte), step s = .next t → ∃ b', step (s.setST b) = .next (t.setST b')

/-- A stack entry at or above SP is dead (10_state R25, the spec's decision D29, log 18): under the same random byte a
Step from a state with another value there ends in the same state but for that entry. The byte is the same because both
Steps are at the same count of draws (log 8). -/
def Obligations.DeadStackEntriesAreNeverRead : Prop :=
  ∀ (s t : State) (k : Fin 16) (w : Word), s.sp.toNat ≤ k.val → step s = .next t →
    ∃ w', step (s.setStack k w) = .next (t.setStack k w')
end

