-- ==== Sys2Proof/Laws/Decode.lean ====
section
/-! SUPPORT. The opcode map by arithmetic on the fields of a word: when a row selects a word, the fields of a word the
encoder builds, and that each row builds its instruction back. -/

namespace Sys2Proof

/-! ### Masks (30_encoding R74) -/

/-- A mask that keeps the top nibble and the low k bits. -/
theorem land_mask {w : Nat} (hw : w < 2 ^ 16) (k m : Nat) (hk : k ≤ 12)
    (hm : ∀ j < 16, m.testBit j = (decide (12 ≤ j) || decide (j < k))) :
    w &&& m = 2 ^ 12 * (w / 2 ^ 12) + w % 2 ^ k := by
  have hlow : w % 2 ^ k < 2 ^ 12 :=
    Nat.lt_of_lt_of_le (Nat.mod_lt _ (Nat.two_pow_pos k)) (Nat.pow_le_pow_right (by decide) hk)
  refine Nat.eq_of_testBit_eq fun j => ?_
  rw [Nat.testBit_and, Nat.testBit_two_pow_mul_add _ hlow, Nat.testBit_mod_two_pow, Nat.testBit_div_two_pow]
  by_cases hj : j < 16
  · rw [hm j hj]
    by_cases h12 : j < 12
    · simp [h12, Nat.not_le.2 h12, Bool.and_comm]
    · simp [h12, Nat.le_of_not_lt h12]
  · have h0 : w.testBit j = false :=
      Nat.testBit_lt_two_pow (Nat.lt_of_lt_of_le hw (Nat.pow_le_pow_right (by decide) (Nat.le_of_not_lt hj)))
    simp [h0, show ¬ j < 12 by omega, Nat.sub_add_cancel (show 12 ≤ j by omega)]

/-- A row that fixes the family alone selects by it. -/
theorem selects_F000 (s : String) (v : Word) (b : Word → Instr) (op : Word) (hv : v.toNat % 4096 = 0) :
    OpcodeRow.selects ⟨s, v, 0xF000, b⟩ op = decide (op.toNat / 4096 = v.toNat / 4096) := by
  have := land_mask op.isLt 0 0xF000 (by decide) (by decide)
  simp only [OpcodeRow.selects, beq_eq_decide, ← BitVec.toNat_inj, BitVec.toNat_and]
  refine decide_eq_decide.2 ?_
  rw [show BitVec.toNat (0xF000 : Word) = 0xF000 from rfl, this]
  omega

/-- A row that fixes the family and n. -/
theorem selects_F00F (s : String) (v : Word) (b : Word → Instr) (op : Word) (hv : v.toNat / 16 % 256 = 0) :
    OpcodeRow.selects ⟨s, v, 0xF00F, b⟩ op =
      (decide (op.toNat / 4096 = v.toNat / 4096) && decide (op.toNat % 16 = v.toNat % 16)) := by
  have := land_mask op.isLt 4 0xF00F (by decide) (by decide)
  simp only [OpcodeRow.selects, beq_eq_decide, ← BitVec.toNat_inj, BitVec.toNat_and, ← Bool.decide_and]
  refine decide_eq_decide.2 ?_
  rw [show BitVec.toNat (0xF00F : Word) = 0xF00F from rfl, this]
  omega

/-- A row that fixes the family and kk. -/
theorem selects_F0FF (s : String) (v : Word) (b : Word → Instr) (op : Word) (hv : v.toNat / 256 % 16 = 0) :
    OpcodeRow.selects ⟨s, v, 0xF0FF, b⟩ op =
      (decide (op.toNat / 4096 = v.toNat / 4096) && decide (op.toNat % 256 = v.toNat % 256)) := by
  have := land_mask op.isLt 8 0xF0FF (by decide) (by decide)
  simp only [OpcodeRow.selects, beq_eq_decide, ← BitVec.toNat_inj, BitVec.toNat_and, ← Bool.decide_and]
  refine decide_eq_decide.2 ?_
  rw [show BitVec.toNat (0xF0FF : Word) = 0xF0FF from rfl, this]
  omega

/-- A row that fixes all 16 bits. -/
theorem selects_FFFF (s : String) (v : Word) (b : Word → Instr) (op : Word) :
    OpcodeRow.selects ⟨s, v, 0xFFFF, b⟩ op = decide (op.toNat = v.toNat) := by
  have h : op &&& 0xFFFF#16 = op := by
    have := BitVec.and_allOnes (x := op)
    simpa using this
  simp only [OpcodeRow.selects, beq_eq_decide, ← BitVec.toNat_inj]
  refine decide_eq_decide.2 ?_
  rw [show op &&& 0xFFFF = op from h]

/-! ### The words of the six formats (30_encoding R71, R72) -/

theorem toNat_formatNNN {p : Nat} (hp : p < 16) (nnn : Addr12) : (formatNNN p nnn).toNat = 4096 * p + nnn.toNat := by
  have := nnn.isLt
  simp only [formatNNN, BitVec.toNat_ofNat]
  omega

theorem toNat_formatXKK {p : Nat} (hp : p < 16) (x : Reg) (kk : Byte) :
    (formatXKK p x kk).toNat = 4096 * p + 256 * x.val + kk.toNat := by
  have := kk.isLt
  simp only [formatXKK, BitVec.toNat_ofNat]
  omega

theorem toNat_formatXYN {p n : Nat} (hp : p < 16) (hn : n < 16) (x y : Reg) :
    (formatXYN p x y n).toNat = 4096 * p + 256 * x.val + 16 * y.val + n := by
  simp only [formatXYN, BitVec.toNat_ofNat]
  omega

theorem toNat_formatX {p kk : Nat} (hp : p < 16) (hk : kk < 256) (x : Reg) :
    (formatX p x kk).toNat = 4096 * p + 256 * x.val + kk := by
  simp only [formatX, BitVec.toNat_ofNat]
  omega

theorem fieldNNN_of {op : Word} {p : Nat} {nnn : Addr12} (h : op.toNat = 4096 * p + nnn.toNat) : fieldNNN op = nnn := by
  apply BitVec.eq_of_toNat_eq
  have := nnn.isLt
  simp only [fieldNNN, BitVec.toNat_ofNat]
  omega

theorem fieldX_of {op : Word} {p r : Nat} {x : Reg} (h : op.toNat = 4096 * p + 256 * x.val + r) (hr : r < 256) :
    fieldX op = x := by
  apply Fin.ext
  simp only [fieldX]
  omega

theorem fieldKK_of {op : Word} {p r : Nat} {kk : Byte} (h : op.toNat = 4096 * p + 256 * r + kk.toNat) :
    fieldKK op = kk := by
  apply BitVec.eq_of_toNat_eq
  have := kk.isLt
  simp only [fieldKK, BitVec.toNat_ofNat]
  omega

theorem fieldY_of {op : Word} {p r n : Nat} {y : Reg} (h : op.toNat = 4096 * p + 256 * r + 16 * y.val + n) (hn : n < 16) :
    fieldY op = y := by
  apply Fin.ext
  simp only [fieldY]
  omega

theorem fieldN_of {op : Word} {p r y : Nat} {n : Fin 16} (h : op.toNat = 4096 * p + 256 * r + 16 * y + n.val) :
    fieldN op = n := by
  apply Fin.ext
  simp only [fieldN]
  omega

/-! ### The decoder as a dispatch on the fields (30_encoding R74 to R80) -/

/-- The instruction of the first row of a list that the word selects. -/
def firstOf (rows : List OpcodeRow) (op : Word) : Option Instr :=
  (rows.find? fun r => r.selects op).map fun r => r.build op

/-- The decoder's answer from that instruction. -/
def answerOf (op : Word) : Option Instr → Except DecodeError Instr
  | some i => .ok i
  | none => .error (illegalWord op)

@[simp] theorem answerOf_some (op : Word) (i : Instr) : answerOf op (some i) = .ok i := rfl

@[simp] theorem answerOf_none (op : Word) : answerOf op none = .error (illegalWord op) := rfl

@[simp] theorem answerOf_ite (op : Word) (c : Prop) [Decidable c] (a b : Option Instr) :
    answerOf op (if c then a else b) = if c then answerOf op a else answerOf op b := by
  split <;> rfl

theorem decodeWith_firstOf (hasExit : Bool) (op : Word) :
    decodeWith hasExit op = answerOf op (firstOf (opcodeMap hasExit) op) := by
  unfold decodeWith firstOf
  cases (opcodeMap hasExit).find? fun r => r.selects op <;> rfl

theorem firstOf_append (a b : List OpcodeRow) (op : Word) :
    firstOf (a ++ b) op = (firstOf a op).or (firstOf b op) := by
  simp only [firstOf, List.find?_append]
  cases a.find? fun r => r.selects op <;> rfl

@[simp] theorem firstOf_nil (op : Word) : firstOf [] op = none := rfl

theorem firstOf_cons (r : OpcodeRow) (rows : List OpcodeRow) (op : Word) :
    firstOf (r :: rows) op = if r.selects op then some (r.build op) else firstOf rows op := by
  simp only [firstOf, List.find?_cons]
  cases r.selects op <;> rfl

theorem firstOf_family0 (op : Word) :
    firstOf (rowsFamily0 true) op =
      if op.toNat = 0x00E0 then some .cls
      else if op.toNat = 0x00EE then some .ret
      else if op.toNat = 0x00FD then some .exit
      else if op.toNat / 4096 = 0 then some (.sys (fieldNNN op)) else none := by
  simp (disch := decide) only [rowsFamily0, if_true, List.cons_append, List.nil_append, firstOf_cons, selects_FFFF,
    selects_F000, firstOf_nil]
  simp

theorem firstOf_family1to7 (op : Word) :
    firstOf rowsFamily1to7 op =
      match op.toNat / 4096 with
      | 0x1 => some (.jp (fieldNNN op))
      | 0x2 => some (.call (fieldNNN op))
      | 0x3 => some (.seByte (fieldX op) (fieldKK op))
      | 0x4 => some (.sneByte (fieldX op) (fieldKK op))
      | 0x5 => if op.toNat % 16 = 0 then some (.seReg (fieldX op) (fieldY op)) else none
      | 0x6 => some (.ldByte (fieldX op) (fieldKK op))
      | 0x7 => some (.addByte (fieldX op) (fieldKK op))
      | _ => none := by
  have hp : op.toNat / 4096 < 16 := by have := op.isLt; omega
  simp (disch := decide) only [rowsFamily1to7, firstOf_cons, selects_F000, selects_F00F, firstOf_nil]
  generalize op.toNat / 4096 = q at hp
  interval_cases q <;> simp

theorem firstOf_family8 (op : Word) :
    firstOf rowsFamily8 op =
      if op.toNat / 4096 = 8 then
        match op.toNat % 16 with
        | 0x0 => some (.ldReg (fieldX op) (fieldY op))
        | 0x1 => some (.orReg (fieldX op) (fieldY op))
        | 0x2 => some (.andReg (fieldX op) (fieldY op))
        | 0x3 => some (.xorReg (fieldX op) (fieldY op))
        | 0x4 => some (.addReg (fieldX op) (fieldY op))
        | 0x5 => some (.subReg (fieldX op) (fieldY op))
        | 0x6 => some (.shr (fieldX op) (fieldY op))
        | 0x7 => some (.subnReg (fieldX op) (fieldY op))
        | 0xE => some (.shl (fieldX op) (fieldY op))
        | _ => none
      else none := by
  have hr : op.toNat % 16 < 16 := Nat.mod_lt _ (by decide)
  simp (disch := decide) only [rowsFamily8, firstOf_cons, selects_F00F, firstOf_nil]
  generalize op.toNat % 16 = r at hr
  by_cases hq : op.toNat / 4096 = 8
  · simp only [hq]
    interval_cases r <;> simp
  · simp [hq]

theorem firstOf_family9toD (op : Word) :
    firstOf rowsFamily9toD op =
      match op.toNat / 4096 with
      | 0x9 => if op.toNat % 16 = 0 then some (.sneReg (fieldX op) (fieldY op)) else none
      | 0xA => some (.ldI (fieldNNN op))
      | 0xB => some (.jpV0 (fieldNNN op))
      | 0xC => some (.rnd (fieldX op) (fieldKK op))
      | 0xD => some (.drw (fieldX op) (fieldY op) (fieldN op))
      | _ => none := by
  have hp : op.toNat / 4096 < 16 := by have := op.isLt; omega
  simp (disch := decide) only [rowsFamily9toD, firstOf_cons, selects_F000, selects_F00F, firstOf_nil]
  generalize op.toNat / 4096 = q at hp
  interval_cases q <;> simp

theorem firstOf_familyE (op : Word) :
    firstOf rowsFamilyE op =
      if op.toNat / 4096 = 0xE then
        (if op.toNat % 256 = 0x9E then some (.skp (fieldX op))
        else if op.toNat % 256 = 0xA1 then some (.sknp (fieldX op)) else none)
      else none := by
  simp (disch := decide) only [rowsFamilyE, firstOf_cons, selects_F0FF, firstOf_nil]
  by_cases hE : op.toNat / 4096 = 0xE <;> simp [hE]

theorem firstOf_familyF (op : Word) :
    firstOf rowsFamilyF op =
      if op.toNat / 4096 = 0xF then
        (if op.toNat % 256 = 0x07 then some (.ldVxDT (fieldX op))
        else if op.toNat % 256 = 0x0A then some (.ldVxK (fieldX op))
        else if op.toNat % 256 = 0x15 then some (.ldDTVx (fieldX op))
        else if op.toNat % 256 = 0x18 then some (.ldSTVx (fieldX op))
        else if op.toNat % 256 = 0x1E then some (.addIVx (fieldX op))
        else if op.toNat % 256 = 0x29 then some (.ldFVx (fieldX op))
        else if op.toNat % 256 = 0x33 then some (.ldBVx (fieldX op))
        else if op.toNat % 256 = 0x55 then some (.ldMemVx (fieldX op))
        else if op.toNat % 256 = 0x65 then some (.ldVxMem (fieldX op)) else none)
      else none := by
  simp (disch := decide) only [rowsFamilyF, firstOf_cons, selects_F0FF, firstOf_nil]
  by_cases hF : op.toNat / 4096 = 0xF <;> simp [hF]

/-- The decoder of this machine by the family, and within a family by the field its rows fix. -/
theorem decode_eq (op : Word) :
    decode op =
      if op.toNat = 0x00E0 then .ok .cls
      else if op.toNat = 0x00EE then .ok .ret
      else if op.toNat = 0x00FD then .ok .exit
      else match op.toNat / 4096 with
        | 0x0 => .ok (.sys (fieldNNN op))
        | 0x1 => .ok (.jp (fieldNNN op))
        | 0x2 => .ok (.call (fieldNNN op))
        | 0x3 => .ok (.seByte (fieldX op) (fieldKK op))
        | 0x4 => .ok (.sneByte (fieldX op) (fieldKK op))
        | 0x5 => if op.toNat % 16 = 0 then .ok (.seReg (fieldX op) (fieldY op)) else .error (.illegal5 op)
        | 0x6 => .ok (.ldByte (fieldX op) (fieldKK op))
        | 0x7 => .ok (.addByte (fieldX op) (fieldKK op))
        | 0x8 =>
          match op.toNat % 16 with
          | 0x0 => .ok (.ldReg (fieldX op) (fieldY op))
          | 0x1 => .ok (.orReg (fieldX op) (fieldY op))
          | 0x2 => .ok (.andReg (fieldX op) (fieldY op))
          | 0x3 => .ok (.xorReg (fieldX op) (fieldY op))
          | 0x4 => .ok (.addReg (fieldX op) (fieldY op))
          | 0x5 => .ok (.subReg (fieldX op) (fieldY op))
          | 0x6 => .ok (.shr (fieldX op) (fieldY op))
          | 0x7 => .ok (.subnReg (fieldX op) (fieldY op))
          | 0xE => .ok (.shl (fieldX op) (fieldY op))
          | _ => .error (.illegal8 op)
        | 0x9 => if op.toNat % 16 = 0 then .ok (.sneReg (fieldX op) (fieldY op)) else .error (.illegal9 op)
        | 0xA => .ok (.ldI (fieldNNN op))
        | 0xB => .ok (.jpV0 (fieldNNN op))
        | 0xC => .ok (.rnd (fieldX op) (fieldKK op))
        | 0xD => .ok (.drw (fieldX op) (fieldY op) (fieldN op))
        | 0xE =>
          if op.toNat % 256 = 0x9E then .ok (.skp (fieldX op))
          else if op.toNat % 256 = 0xA1 then .ok (.sknp (fieldX op)) else .error (.illegalE op)
        | _ =>
          if op.toNat % 256 = 0x07 then .ok (.ldVxDT (fieldX op))
          else if op.toNat % 256 = 0x0A then .ok (.ldVxK (fieldX op))
          else if op.toNat % 256 = 0x15 then .ok (.ldDTVx (fieldX op))
          else if op.toNat % 256 = 0x18 then .ok (.ldSTVx (fieldX op))
          else if op.toNat % 256 = 0x1E then .ok (.addIVx (fieldX op))
          else if op.toNat % 256 = 0x29 then .ok (.ldFVx (fieldX op))
          else if op.toNat % 256 = 0x33 then .ok (.ldBVx (fieldX op))
          else if op.toNat % 256 = 0x55 then .ok (.ldMemVx (fieldX op))
          else if op.toNat % 256 = 0x65 then .ok (.ldVxMem (fieldX op)) else .error (.illegalF op) := by
  have hp : op.toNat / 4096 < 16 := by have := op.isLt; omega
  have hr : op.toNat % 16 < 16 := Nat.mod_lt _ (by decide)
  rw [decode, decodeWith_firstOf]
  simp only [opcodeMap, firstOf_append, firstOf_family0, firstOf_family1to7, firstOf_family8, firstOf_family9toD,
    firstOf_familyE, firstOf_familyF]
  obtain ⟨q, hq⟩ : ∃ q, op.toNat / 4096 = q := ⟨_, rfl⟩
  obtain ⟨r, hr'⟩ : ∃ r, op.toNat % 16 = r := ⟨_, rfl⟩
  obtain ⟨k, hk⟩ : ∃ k, op.toNat % 256 = k := ⟨_, rfl⟩
  simp only [hq, hr', hk] at hp hr ⊢
  by_cases h0 : op.toNat = 0x00E0
  · simp [h0]
  by_cases h1 : op.toNat = 0x00EE
  · simp [h1]
  by_cases h2 : op.toNat = 0x00FD
  · simp [h2]
  simp only [h0, h1, h2, if_false]
  interval_cases q
  all_goals first
    | (simp [illegalWord, fieldP, hq]; done)
    | (interval_cases r <;> simp [illegalWord, fieldP, hq])

end Sys2Proof
end

