-- ==== Sys2Proof/Laws/Display.lean ====
section
/-! SUPPORT. Pixels of the display buffer, targets, and the scan as an XOR with a mask. -/

namespace Sys2Proof.Machine

theorem FrameBuffer.pixel_flip (fb : FrameBuffer) (t u : Nat) :
    (fb.flip t).pixel u = (fb.pixel u != decide (u = t ∧ t < 2048)) := by
  unfold FrameBuffer.flip FrameBuffer.pixel
  by_cases hu : u / 64 < 32
  · by_cases ht : t / 64 < 32
    · simp only [hu, ht, dif_pos, Vector.getElem_set]
      by_cases hr : t / 64 = u / 64
      · simp only [hr, if_true, BitVec.getLsbD_xor, BitVec.getLsbD_twoPow]
        have h64 : t % 64 < 64 := Nat.mod_lt _ (by decide)
        have : (t % 64 = u % 64) ↔ (u = t ∧ t < 2048) := by omega
        simp [h64, this]
      · have : ¬ (u = t ∧ t < 2048) := by rintro ⟨rfl, -⟩; exact hr rfl
        simp [hr, this]
    · have : ¬ (u = t ∧ t < 2048) := by omega
      simp [hu, ht, this]
  · have : ¬ (u = t ∧ t < 2048) := by omega
    simp [hu, this]

theorem FrameBuffer.pixel_of_ge (fb : FrameBuffer) {t : Nat} (h : 2048 ≤ t) : fb.pixel t = false := by
  unfold FrameBuffer.pixel
  rw [dif_neg (by omega)]

@[simp] theorem FrameBuffer.pixel_clear (t : Nat) : FrameBuffer.clear.pixel t = false := by
  unfold FrameBuffer.pixel FrameBuffer.clear
  split <;> simp

/-- A display buffer is its 2048 pixels. -/
theorem FrameBuffer.ext_pixel {fb fb' : FrameBuffer} (h : ∀ t, t < 2048 → fb.pixel t = fb'.pixel t) : fb = fb' := by
  refine Vector.ext fun r hr => BitVec.eq_of_getLsbD_eq fun c hc => ?_
  have := h (64 * r + c) (by omega)
  unfold FrameBuffer.pixel at this
  rw [dif_pos (by omega), dif_pos (by omega)] at this
  simpa [show (64 * r + c) / 64 = r by omega, show (64 * r + c) % 64 = c by omega] using this

theorem target_lt {hw : HWrap} {cx cy p : Nat} (h : target hw cx cy = some p) : p < 2048 := by
  cases hw <;> simp only [target] at h <;> split at h <;> simp at h <;> omega

/-- The scan over distinct pixels: each touched pixel is inverted, every other one is as before, and the flag says
whether a touched pixel was on (44_display R153). -/
theorem foldl_xorPixel (ts : List Nat) (hn : ts.Nodup) (ht : ∀ t ∈ ts, t < 2048) (fb : FrameBuffer) (b : Bool) :
    (∀ p, ((ts.foldl xorPixel (fb, b)).1).pixel p = (fb.pixel p != decide (p ∈ ts))) ∧
      (ts.foldl xorPixel (fb, b)).2 = (b || ts.any fun t => fb.pixel t) := by
  induction ts generalizing fb b with
  | nil => simp
  | cons t ts ih =>
    obtain ⟨hnot, hn⟩ := List.nodup_cons.1 hn
    obtain ⟨h1, h2⟩ := ih hn (fun u hu => ht u (by simp [hu])) (fb.flip t) (b || fb.pixel t)
    have htl : t < 2048 := ht t (by simp)
    refine ⟨fun p => ?_, ?_⟩
    · rw [List.foldl_cons, xorPixel, h1, FrameBuffer.pixel_flip]
      by_cases hp : p = t
      · subst hp; simp [htl, hnot]
      · simp [hp]
    · rw [List.foldl_cons, xorPixel, h2, List.any_cons, ← Bool.or_assoc]
      congr 1
      rw [Bool.eq_iff_iff, List.any_eq_true, List.any_eq_true]
      refine exists_congr fun u => and_congr_right fun hu => ?_
      have : u ≠ t := fun h => hnot (h ▸ hu)
      simp [FrameBuffer.pixel_flip, this]

end Sys2Proof.Machine
end

