-- ==== Sys2Proof/Laws/Memory.lean ====
section
/-! SUPPORT. What memory reads after a write, and that every memory operation keeps the canonical form. -/

namespace Sys2Proof.Machine

@[simp] theorem params_memSize : params.memSize = 4095 := rfl

theorem inBounds_iff (a n : Nat) : inBounds a n = true ↔ n = 0 ∨ a + n ≤ params.memSize := by
  simp [inBounds]
  omega

/-- An address below every listed one is unlisted. -/
theorem Memory.read_of_lt {m : Memory} {a : Nat} (h : ∀ c ∈ m, a < c.1) : m.read a = resetByte a := by
  induction m with
  | nil => rfl
  | cons c m ih =>
    have hc : a < c.1 := h c (by simp)
    simp only [Memory.read, if_neg (Nat.ne_of_lt hc)]
    exact ih fun d hd => h d (by simp [hd])

/-- Reading after a write: the byte written at its address, every other byte as before (20_memory R52, R60). -/
theorem Memory.read_write {m : Memory} (h : m.wf) (a b : Nat) (v : Byte) :
    (m.write a v).read b = if b = a then v else m.read b := by
  induction m with
  | nil =>
    simp only [Memory.write]
    split <;> simp +contextual [Memory.read, *]
  | cons c m ih =>
    obtain ⟨hp, hm⟩ := h
    obtain ⟨hlt, hp⟩ := List.pairwise_cons.1 hp
    have ih := ih ⟨hp, fun d hd => hm d (by simp [hd])⟩
    have hbelow : ∀ {x}, x ≤ c.1 → Memory.read m x = resetByte x := fun hx =>
      Memory.read_of_lt fun d hd => Nat.lt_of_le_of_lt hx (hlt d hd)
    obtain ⟨k, w⟩ := c
    simp only [Memory.write]
    split
    next hak =>
      have hne : a ≠ k := Nat.ne_of_lt hak
      split
      next hv =>
        by_cases hb : b = a
        · subst hb; simp [Memory.read, hne, hbelow (Nat.le_of_lt hak), hv]
        · simp [hb]
      next => simp [Memory.read]
    next hak =>
      split
      next he =>
        subst he
        split
        next hv =>
          by_cases hb : b = a
          · subst hb; simp [hbelow (Nat.le_refl _), hv]
          · simp [Memory.read, hb]
        next => by_cases hb : b = a <;> simp [Memory.read, hb]
      next he =>
        by_cases hb : b = k
        · subst hb; simp [Memory.read, Ne.symm he]
        · simp [Memory.read, hb, ih]

/-- A write adds no address but its own. -/
theorem Memory.mem_write {m : Memory} {a : Nat} {v : Byte} {c : Host.Cell} (h : c ∈ m.write a v) :
    c ∈ m ∨ (c = (a, v) ∧ v ≠ resetByte a) := by
  induction m with
  | nil =>
    simp only [Memory.write] at h
    split at h <;> simp_all
  | cons d m ih =>
    obtain ⟨k, w⟩ := d
    simp only [Memory.write] at h
    split at h
    · split at h
      · exact .inl h
      · rcases List.mem_cons.1 h with h | h
        · exact .inr ⟨h, ‹_›⟩
        · exact .inl h
    · split at h
      · split at h
        · exact .inl (by simp [h])
        · rcases List.mem_cons.1 h with h | h
          · exact .inr ⟨h, ‹_›⟩
          · exact .inl (by simp [h])
      · rcases List.mem_cons.1 h with h | h
        · exact .inl (by simp [h])
        · rcases ih h with h | h
          · exact .inl (by simp [h])
          · exact .inr h

/-- A write to an address that exists keeps the canonical form. -/
theorem Memory.wf_write {m : Memory} (h : m.wf) {a : Nat} (ha : a < params.memSize) (v : Byte) :
    (m.write a v).wf := by
  refine ⟨?_, fun c hc => ?_⟩
  · induction m with
    | nil => simp only [Memory.write]; split <;> simp
    | cons d m ih =>
      obtain ⟨hp, hm⟩ := h
      have hd := List.pairwise_cons.1 hp
      have ih := ih ⟨hd.2, fun e he => hm e (by simp [he])⟩
      obtain ⟨k, w⟩ := d
      simp only [Memory.write]
      split
      next hak =>
        split
        · exact hp
        · refine List.pairwise_cons.2 ⟨fun e he => ?_, hp⟩
          rcases List.mem_cons.1 he with rfl | he
          · exact hak
          · exact Nat.lt_trans hak (hd.1 e he)
      next hak =>
        split
        next he =>
          subst he
          split
          · exact hd.2
          · exact List.pairwise_cons.2 ⟨fun e he => hd.1 e he, hd.2⟩
        next he =>
          refine List.pairwise_cons.2 ⟨fun e hmem => ?_, ih⟩
          rcases Memory.mem_write hmem with hmem | ⟨rfl, -⟩
          · exact hd.1 e hmem
          · exact Nat.lt_of_le_of_ne (Nat.le_of_not_lt hak) (Ne.symm he)
  · rcases Memory.mem_write hc with hc | ⟨rfl, hv⟩
    · exact h.2 c hc
    · exact ⟨ha, hv⟩

/-- Writing a list of bytes to addresses that exist keeps the canonical form. -/
theorem Memory.wf_writeAll {m : Memory} (h : m.wf) {a : Nat} {vs : List Byte}
    (ha : inBounds a vs.length = true) : (m.writeAll a vs).wf := by
  induction vs generalizing m a with
  | nil => exact h
  | cons v vs ih =>
    have hb : a + (vs.length + 1) ≤ params.memSize := by
      rcases (inBounds_iff _ _).1 ha with h0 | h0 <;> simp_all
    refine ih (Memory.wf_write h (by omega) v) ((inBounds_iff _ _).2 (.inr (by omega)))

/-- Reading after a list of bytes was written (20_memory R52). -/
theorem Memory.read_writeAll {m : Memory} (h : m.wf) {a : Nat} {vs : List Byte}
    (ha : inBounds a vs.length = true) (b : Nat) :
    (m.writeAll a vs).read b = if a ≤ b ∧ b < a + vs.length then vs.getD (b - a) 0 else m.read b := by
  induction vs generalizing m a with
  | nil => simp [Memory.writeAll]
  | cons v vs ih =>
    have hb : a + (vs.length + 1) ≤ params.memSize := by
      rcases (inBounds_iff _ _).1 ha with h0 | h0 <;> simp_all
    have hw := Memory.wf_write h (show a < params.memSize by omega) v
    rw [Memory.writeAll, ih hw ((inBounds_iff _ _).2 (.inr (by omega))), Memory.read_write h]
    rcases Nat.lt_trichotomy b a with hlt | rfl | hgt
    · simp [show ¬ (a + 1 ≤ b) by omega, show ¬ (a ≤ b) by omega, Nat.ne_of_lt hlt]
    · simp
    · obtain ⟨k, rfl⟩ := Nat.exists_eq_add_of_lt hgt
      by_cases hk : k < vs.length
      · simp [show a + 1 ≤ a + k + 1 by omega, show a + k + 1 < a + 1 + vs.length by omega,
          show a ≤ a + k + 1 by omega, show a + k + 1 < a + (vs.length + 1) by omega,
          show a + k + 1 - (a + 1) = k by omega, show a + k + 1 - a = k + 1 by omega]
      · simp [show ¬ (a + k + 1 < a + 1 + vs.length) by omega, show ¬ (a + k + 1 < a + (vs.length + 1)) by omega,
          show a + k + 1 ≠ a by omega]

@[simp] theorem Memory.length_readAll (m : Memory) (a n : Nat) : (m.readAll a n).length = n := by
  induction n generalizing a with
  | zero => rfl
  | succ n ih => simp [Memory.readAll, ih]

/-- The k-th byte read from a on is the byte at a + k (20_memory R52). -/
theorem Memory.getD_readAll (m : Memory) (a n k : Nat) (d : Byte) :
    (m.readAll a n).getD k d = if k < n then m.read (a + k) else d := by
  induction n generalizing a k with
  | zero => simp [Memory.readAll]
  | succ n ih =>
    cases k with
    | zero => simp [Memory.readAll]
    | succ k => simp only [Memory.readAll, List.getD_cons_succ, ih]; simp [Nat.add_assoc, Nat.add_comm 1 k]

theorem Memory.reset_wf : Memory.wf State.reset.mem := by decide

end Sys2Proof.Machine
end

