-- ==== Sys2Proof/Laws/State.lean ====
section
/-! SUPPORT. One lemma per field per update of State, each true by rfl, and what the register accessors read after an
update. -/

namespace Sys2Proof.Machine.State

/-! ### setV -/

@[simp] theorem setV_v (s : State) (x : Reg) (b : Byte) : (s.setV x b).v = s.v.set x.val b := rfl
@[simp] theorem setV_i (s : State) (x : Reg) (b : Byte) : (s.setV x b).i = s.i := rfl
@[simp] theorem setV_pc (s : State) (x : Reg) (b : Byte) : (s.setV x b).pc = s.pc := rfl
@[simp] theorem setV_sp (s : State) (x : Reg) (b : Byte) : (s.setV x b).sp = s.sp := rfl
@[simp] theorem setV_stack (s : State) (x : Reg) (b : Byte) : (s.setV x b).stack = s.stack := rfl
@[simp] theorem setV_dt (s : State) (x : Reg) (b : Byte) : (s.setV x b).dt = s.dt := rfl
@[simp] theorem setV_st (s : State) (x : Reg) (b : Byte) : (s.setV x b).st = s.st := rfl
@[simp] theorem setV_mem (s : State) (x : Reg) (b : Byte) : (s.setV x b).mem = s.mem := rfl
@[simp] theorem setV_fb (s : State) (x : Reg) (b : Byte) : (s.setV x b).fb = s.fb := rfl
@[simp] theorem setV_keys (s : State) (x : Reg) (b : Byte) : (s.setV x b).keys = s.keys := rfl
@[simp] theorem setV_run (s : State) (x : Reg) (b : Byte) : (s.setV x b).run = s.run := rfl
@[simp] theorem setV_rndDraws (s : State) (x : Reg) (b : Byte) : (s.setV x b).rndDraws = s.rndDraws := rfl

/-! ### setI -/

@[simp] theorem setI_v (s : State) (w : Word) : (s.setI w).v = s.v := rfl
@[simp] theorem setI_i (s : State) (w : Word) : (s.setI w).i = w := rfl
@[simp] theorem setI_pc (s : State) (w : Word) : (s.setI w).pc = s.pc := rfl
@[simp] theorem setI_sp (s : State) (w : Word) : (s.setI w).sp = s.sp := rfl
@[simp] theorem setI_stack (s : State) (w : Word) : (s.setI w).stack = s.stack := rfl
@[simp] theorem setI_dt (s : State) (w : Word) : (s.setI w).dt = s.dt := rfl
@[simp] theorem setI_st (s : State) (w : Word) : (s.setI w).st = s.st := rfl
@[simp] theorem setI_mem (s : State) (w : Word) : (s.setI w).mem = s.mem := rfl
@[simp] theorem setI_fb (s : State) (w : Word) : (s.setI w).fb = s.fb := rfl
@[simp] theorem setI_keys (s : State) (w : Word) : (s.setI w).keys = s.keys := rfl
@[simp] theorem setI_run (s : State) (w : Word) : (s.setI w).run = s.run := rfl
@[simp] theorem setI_rndDraws (s : State) (w : Word) : (s.setI w).rndDraws = s.rndDraws := rfl

/-! ### setPC -/

@[simp] theorem setPC_v (s : State) (w : Word) : (s.setPC w).v = s.v := rfl
@[simp] theorem setPC_i (s : State) (w : Word) : (s.setPC w).i = s.i := rfl
@[simp] theorem setPC_pc (s : State) (w : Word) : (s.setPC w).pc = w := rfl
@[simp] theorem setPC_sp (s : State) (w : Word) : (s.setPC w).sp = s.sp := rfl
@[simp] theorem setPC_stack (s : State) (w : Word) : (s.setPC w).stack = s.stack := rfl
@[simp] theorem setPC_dt (s : State) (w : Word) : (s.setPC w).dt = s.dt := rfl
@[simp] theorem setPC_st (s : State) (w : Word) : (s.setPC w).st = s.st := rfl
@[simp] theorem setPC_mem (s : State) (w : Word) : (s.setPC w).mem = s.mem := rfl
@[simp] theorem setPC_fb (s : State) (w : Word) : (s.setPC w).fb = s.fb := rfl
@[simp] theorem setPC_keys (s : State) (w : Word) : (s.setPC w).keys = s.keys := rfl
@[simp] theorem setPC_run (s : State) (w : Word) : (s.setPC w).run = s.run := rfl
@[simp] theorem setPC_rndDraws (s : State) (w : Word) : (s.setPC w).rndDraws = s.rndDraws := rfl

/-! ### setSP -/

@[simp] theorem setSP_v (s : State) (w : Word) : (s.setSP w).v = s.v := rfl
@[simp] theorem setSP_i (s : State) (w : Word) : (s.setSP w).i = s.i := rfl
@[simp] theorem setSP_pc (s : State) (w : Word) : (s.setSP w).pc = s.pc := rfl
@[simp] theorem setSP_sp (s : State) (w : Word) : (s.setSP w).sp = w := rfl
@[simp] theorem setSP_stack (s : State) (w : Word) : (s.setSP w).stack = s.stack := rfl
@[simp] theorem setSP_dt (s : State) (w : Word) : (s.setSP w).dt = s.dt := rfl
@[simp] theorem setSP_st (s : State) (w : Word) : (s.setSP w).st = s.st := rfl
@[simp] theorem setSP_mem (s : State) (w : Word) : (s.setSP w).mem = s.mem := rfl
@[simp] theorem setSP_fb (s : State) (w : Word) : (s.setSP w).fb = s.fb := rfl
@[simp] theorem setSP_keys (s : State) (w : Word) : (s.setSP w).keys = s.keys := rfl
@[simp] theorem setSP_run (s : State) (w : Word) : (s.setSP w).run = s.run := rfl
@[simp] theorem setSP_rndDraws (s : State) (w : Word) : (s.setSP w).rndDraws = s.rndDraws := rfl

/-! ### setStack -/

@[simp] theorem setStack_v (s : State) (k : Fin 16) (w : Word) : (s.setStack k w).v = s.v := rfl
@[simp] theorem setStack_i (s : State) (k : Fin 16) (w : Word) : (s.setStack k w).i = s.i := rfl
@[simp] theorem setStack_pc (s : State) (k : Fin 16) (w : Word) : (s.setStack k w).pc = s.pc := rfl
@[simp] theorem setStack_sp (s : State) (k : Fin 16) (w : Word) : (s.setStack k w).sp = s.sp := rfl
@[simp] theorem setStack_stack (s : State) (k : Fin 16) (w : Word) : (s.setStack k w).stack = s.stack.set k.val w := rfl
@[simp] theorem setStack_dt (s : State) (k : Fin 16) (w : Word) : (s.setStack k w).dt = s.dt := rfl
@[simp] theorem setStack_st (s : State) (k : Fin 16) (w : Word) : (s.setStack k w).st = s.st := rfl
@[simp] theorem setStack_mem (s : State) (k : Fin 16) (w : Word) : (s.setStack k w).mem = s.mem := rfl
@[simp] theorem setStack_fb (s : State) (k : Fin 16) (w : Word) : (s.setStack k w).fb = s.fb := rfl
@[simp] theorem setStack_keys (s : State) (k : Fin 16) (w : Word) : (s.setStack k w).keys = s.keys := rfl
@[simp] theorem setStack_run (s : State) (k : Fin 16) (w : Word) : (s.setStack k w).run = s.run := rfl
@[simp] theorem setStack_rndDraws (s : State) (k : Fin 16) (w : Word) : (s.setStack k w).rndDraws = s.rndDraws := rfl

/-! ### setDT -/

@[simp] theorem setDT_v (s : State) (b : Byte) : (s.setDT b).v = s.v := rfl
@[simp] theorem setDT_i (s : State) (b : Byte) : (s.setDT b).i = s.i := rfl
@[simp] theorem setDT_pc (s : State) (b : Byte) : (s.setDT b).pc = s.pc := rfl
@[simp] theorem setDT_sp (s : State) (b : Byte) : (s.setDT b).sp = s.sp := rfl
@[simp] theorem setDT_stack (s : State) (b : Byte) : (s.setDT b).stack = s.stack := rfl
@[simp] theorem setDT_dt (s : State) (b : Byte) : (s.setDT b).dt = b := rfl
@[simp] theorem setDT_st (s : State) (b : Byte) : (s.setDT b).st = s.st := rfl
@[simp] theorem setDT_mem (s : State) (b : Byte) : (s.setDT b).mem = s.mem := rfl
@[simp] theorem setDT_fb (s : State) (b : Byte) : (s.setDT b).fb = s.fb := rfl
@[simp] theorem setDT_keys (s : State) (b : Byte) : (s.setDT b).keys = s.keys := rfl
@[simp] theorem setDT_run (s : State) (b : Byte) : (s.setDT b).run = s.run := rfl
@[simp] theorem setDT_rndDraws (s : State) (b : Byte) : (s.setDT b).rndDraws = s.rndDraws := rfl

/-! ### setST -/

@[simp] theorem setST_v (s : State) (b : Byte) : (s.setST b).v = s.v := rfl
@[simp] theorem setST_i (s : State) (b : Byte) : (s.setST b).i = s.i := rfl
@[simp] theorem setST_pc (s : State) (b : Byte) : (s.setST b).pc = s.pc := rfl
@[simp] theorem setST_sp (s : State) (b : Byte) : (s.setST b).sp = s.sp := rfl
@[simp] theorem setST_stack (s : State) (b : Byte) : (s.setST b).stack = s.stack := rfl
@[simp] theorem setST_dt (s : State) (b : Byte) : (s.setST b).dt = s.dt := rfl
@[simp] theorem setST_st (s : State) (b : Byte) : (s.setST b).st = b := rfl
@[simp] theorem setST_mem (s : State) (b : Byte) : (s.setST b).mem = s.mem := rfl
@[simp] theorem setST_fb (s : State) (b : Byte) : (s.setST b).fb = s.fb := rfl
@[simp] theorem setST_keys (s : State) (b : Byte) : (s.setST b).keys = s.keys := rfl
@[simp] theorem setST_run (s : State) (b : Byte) : (s.setST b).run = s.run := rfl
@[simp] theorem setST_rndDraws (s : State) (b : Byte) : (s.setST b).rndDraws = s.rndDraws := rfl

/-! ### setMem -/

@[simp] theorem setMem_v (s : State) (m : Memory) : (s.setMem m).v = s.v := rfl
@[simp] theorem setMem_i (s : State) (m : Memory) : (s.setMem m).i = s.i := rfl
@[simp] theorem setMem_pc (s : State) (m : Memory) : (s.setMem m).pc = s.pc := rfl
@[simp] theorem setMem_sp (s : State) (m : Memory) : (s.setMem m).sp = s.sp := rfl
@[simp] theorem setMem_stack (s : State) (m : Memory) : (s.setMem m).stack = s.stack := rfl
@[simp] theorem setMem_dt (s : State) (m : Memory) : (s.setMem m).dt = s.dt := rfl
@[simp] theorem setMem_st (s : State) (m : Memory) : (s.setMem m).st = s.st := rfl
@[simp] theorem setMem_mem (s : State) (m : Memory) : (s.setMem m).mem = m := rfl
@[simp] theorem setMem_fb (s : State) (m : Memory) : (s.setMem m).fb = s.fb := rfl
@[simp] theorem setMem_keys (s : State) (m : Memory) : (s.setMem m).keys = s.keys := rfl
@[simp] theorem setMem_run (s : State) (m : Memory) : (s.setMem m).run = s.run := rfl
@[simp] theorem setMem_rndDraws (s : State) (m : Memory) : (s.setMem m).rndDraws = s.rndDraws := rfl

/-! ### setFB -/

@[simp] theorem setFB_v (s : State) (f : FrameBuffer) : (s.setFB f).v = s.v := rfl
@[simp] theorem setFB_i (s : State) (f : FrameBuffer) : (s.setFB f).i = s.i := rfl
@[simp] theorem setFB_pc (s : State) (f : FrameBuffer) : (s.setFB f).pc = s.pc := rfl
@[simp] theorem setFB_sp (s : State) (f : FrameBuffer) : (s.setFB f).sp = s.sp := rfl
@[simp] theorem setFB_stack (s : State) (f : FrameBuffer) : (s.setFB f).stack = s.stack := rfl
@[simp] theorem setFB_dt (s : State) (f : FrameBuffer) : (s.setFB f).dt = s.dt := rfl
@[simp] theorem setFB_st (s : State) (f : FrameBuffer) : (s.setFB f).st = s.st := rfl
@[simp] theorem setFB_mem (s : State) (f : FrameBuffer) : (s.setFB f).mem = s.mem := rfl
@[simp] theorem setFB_fb (s : State) (f : FrameBuffer) : (s.setFB f).fb = f := rfl
@[simp] theorem setFB_keys (s : State) (f : FrameBuffer) : (s.setFB f).keys = s.keys := rfl
@[simp] theorem setFB_run (s : State) (f : FrameBuffer) : (s.setFB f).run = s.run := rfl
@[simp] theorem setFB_rndDraws (s : State) (f : FrameBuffer) : (s.setFB f).rndDraws = s.rndDraws := rfl

/-! ### setKeys -/

@[simp] theorem setKeys_v (s : State) (k : BitVec 16) : (s.setKeys k).v = s.v := rfl
@[simp] theorem setKeys_i (s : State) (k : BitVec 16) : (s.setKeys k).i = s.i := rfl
@[simp] theorem setKeys_pc (s : State) (k : BitVec 16) : (s.setKeys k).pc = s.pc := rfl
@[simp] theorem setKeys_sp (s : State) (k : BitVec 16) : (s.setKeys k).sp = s.sp := rfl
@[simp] theorem setKeys_stack (s : State) (k : BitVec 16) : (s.setKeys k).stack = s.stack := rfl
@[simp] theorem setKeys_dt (s : State) (k : BitVec 16) : (s.setKeys k).dt = s.dt := rfl
@[simp] theorem setKeys_st (s : State) (k : BitVec 16) : (s.setKeys k).st = s.st := rfl
@[simp] theorem setKeys_mem (s : State) (k : BitVec 16) : (s.setKeys k).mem = s.mem := rfl
@[simp] theorem setKeys_fb (s : State) (k : BitVec 16) : (s.setKeys k).fb = s.fb := rfl
@[simp] theorem setKeys_keys (s : State) (k : BitVec 16) : (s.setKeys k).keys = k := rfl
@[simp] theorem setKeys_run (s : State) (k : BitVec 16) : (s.setKeys k).run = s.run := rfl
@[simp] theorem setKeys_rndDraws (s : State) (k : BitVec 16) : (s.setKeys k).rndDraws = s.rndDraws := rfl

/-! ### setRun -/

@[simp] theorem setRun_v (s : State) (r : RunState) : (s.setRun r).v = s.v := rfl
@[simp] theorem setRun_i (s : State) (r : RunState) : (s.setRun r).i = s.i := rfl
@[simp] theorem setRun_pc (s : State) (r : RunState) : (s.setRun r).pc = s.pc := rfl
@[simp] theorem setRun_sp (s : State) (r : RunState) : (s.setRun r).sp = s.sp := rfl
@[simp] theorem setRun_stack (s : State) (r : RunState) : (s.setRun r).stack = s.stack := rfl
@[simp] theorem setRun_dt (s : State) (r : RunState) : (s.setRun r).dt = s.dt := rfl
@[simp] theorem setRun_st (s : State) (r : RunState) : (s.setRun r).st = s.st := rfl
@[simp] theorem setRun_mem (s : State) (r : RunState) : (s.setRun r).mem = s.mem := rfl
@[simp] theorem setRun_fb (s : State) (r : RunState) : (s.setRun r).fb = s.fb := rfl
@[simp] theorem setRun_keys (s : State) (r : RunState) : (s.setRun r).keys = s.keys := rfl
@[simp] theorem setRun_run (s : State) (r : RunState) : (s.setRun r).run = r := rfl
@[simp] theorem setRun_rndDraws (s : State) (r : RunState) : (s.setRun r).rndDraws = s.rndDraws := rfl

/-! ### setDraws -/

@[simp] theorem setDraws_v (s : State) (n : Nat) : (s.setDraws n).v = s.v := rfl
@[simp] theorem setDraws_i (s : State) (n : Nat) : (s.setDraws n).i = s.i := rfl
@[simp] theorem setDraws_pc (s : State) (n : Nat) : (s.setDraws n).pc = s.pc := rfl
@[simp] theorem setDraws_sp (s : State) (n : Nat) : (s.setDraws n).sp = s.sp := rfl
@[simp] theorem setDraws_stack (s : State) (n : Nat) : (s.setDraws n).stack = s.stack := rfl
@[simp] theorem setDraws_dt (s : State) (n : Nat) : (s.setDraws n).dt = s.dt := rfl
@[simp] theorem setDraws_st (s : State) (n : Nat) : (s.setDraws n).st = s.st := rfl
@[simp] theorem setDraws_mem (s : State) (n : Nat) : (s.setDraws n).mem = s.mem := rfl
@[simp] theorem setDraws_fb (s : State) (n : Nat) : (s.setDraws n).fb = s.fb := rfl
@[simp] theorem setDraws_keys (s : State) (n : Nat) : (s.setDraws n).keys = s.keys := rfl
@[simp] theorem setDraws_run (s : State) (n : Nat) : (s.setDraws n).run = s.run := rfl
@[simp] theorem setDraws_rndDraws (s : State) (n : Nat) : (s.setDraws n).rndDraws = n := rfl

/-! ### The accessors -/

@[simp] theorem getV_setV (s : State) (x y : Reg) (b : Byte) :
    (s.setV x b).getV y = if x = y then b else s.getV y := by
  simp [getV, Vector.getElem_set, Fin.ext_iff]

@[simp] theorem getV_setI (s : State) (x : Reg) (w : Word) : (s.setI w).getV x = s.getV x := rfl
@[simp] theorem getV_setPC (s : State) (x : Reg) (w : Word) : (s.setPC w).getV x = s.getV x := rfl
@[simp] theorem getV_setSP (s : State) (x : Reg) (w : Word) : (s.setSP w).getV x = s.getV x := rfl
@[simp] theorem getV_setStack (s : State) (x : Reg) (q : Fin 16) (w : Word) : (s.setStack q w).getV x = s.getV x := rfl
@[simp] theorem getV_setDT (s : State) (x : Reg) (b : Byte) : (s.setDT b).getV x = s.getV x := rfl
@[simp] theorem getV_setST (s : State) (x : Reg) (b : Byte) : (s.setST b).getV x = s.getV x := rfl
@[simp] theorem getV_setMem (s : State) (x : Reg) (m : Memory) : (s.setMem m).getV x = s.getV x := rfl
@[simp] theorem getV_setFB (s : State) (x : Reg) (f : FrameBuffer) : (s.setFB f).getV x = s.getV x := rfl
@[simp] theorem getV_setKeys (s : State) (x : Reg) (q : BitVec 16) : (s.setKeys q).getV x = s.getV x := rfl
@[simp] theorem getV_setRun (s : State) (x : Reg) (r : RunState) : (s.setRun r).getV x = s.getV x := rfl
@[simp] theorem getV_setDraws (s : State) (x : Reg) (n : Nat) : (s.setDraws n).getV x = s.getV x := rfl

@[simp] theorem keyDown_setV (s : State) (q : Key) (x : Reg) (b : Byte) : (s.setV x b).keyDown q = s.keyDown q := rfl
@[simp] theorem keyDown_setI (s : State) (q : Key) (w : Word) : (s.setI w).keyDown q = s.keyDown q := rfl
@[simp] theorem keyDown_setPC (s : State) (q : Key) (w : Word) : (s.setPC w).keyDown q = s.keyDown q := rfl
@[simp] theorem keyDown_setSP (s : State) (q : Key) (w : Word) : (s.setSP w).keyDown q = s.keyDown q := rfl
@[simp] theorem keyDown_setStack (s : State) (q : Key) (k : Fin 16) (w : Word) : (s.setStack k w).keyDown q = s.keyDown q := rfl
@[simp] theorem keyDown_setDT (s : State) (q : Key) (b : Byte) : (s.setDT b).keyDown q = s.keyDown q := rfl
@[simp] theorem keyDown_setST (s : State) (q : Key) (b : Byte) : (s.setST b).keyDown q = s.keyDown q := rfl
@[simp] theorem keyDown_setMem (s : State) (q : Key) (m : Memory) : (s.setMem m).keyDown q = s.keyDown q := rfl
@[simp] theorem keyDown_setFB (s : State) (q : Key) (f : FrameBuffer) : (s.setFB f).keyDown q = s.keyDown q := rfl
@[simp] theorem keyDown_setRun (s : State) (q : Key) (r : RunState) : (s.setRun r).keyDown q = s.keyDown q := rfl
@[simp] theorem keyDown_setDraws (s : State) (q : Key) (n : Nat) : (s.setDraws n).keyDown q = s.keyDown q := rfl

@[simp] theorem getV_loadRegs (s : State) (bytes : List Byte) (x : Reg) :
    (s.loadRegs bytes).getV x = bytes.getD x.val (s.getV x) := by
  simp [getV, loadRegs]

@[simp] theorem loadRegs_i (s : State) (bytes : List Byte) : (s.loadRegs bytes).i = s.i := rfl
@[simp] theorem loadRegs_pc (s : State) (bytes : List Byte) : (s.loadRegs bytes).pc = s.pc := rfl
@[simp] theorem loadRegs_sp (s : State) (bytes : List Byte) : (s.loadRegs bytes).sp = s.sp := rfl
@[simp] theorem loadRegs_stack (s : State) (bytes : List Byte) : (s.loadRegs bytes).stack = s.stack := rfl
@[simp] theorem loadRegs_dt (s : State) (bytes : List Byte) : (s.loadRegs bytes).dt = s.dt := rfl
@[simp] theorem loadRegs_st (s : State) (bytes : List Byte) : (s.loadRegs bytes).st = s.st := rfl
@[simp] theorem loadRegs_mem (s : State) (bytes : List Byte) : (s.loadRegs bytes).mem = s.mem := rfl
@[simp] theorem loadRegs_fb (s : State) (bytes : List Byte) : (s.loadRegs bytes).fb = s.fb := rfl
@[simp] theorem loadRegs_keys (s : State) (bytes : List Byte) : (s.loadRegs bytes).keys = s.keys := rfl
@[simp] theorem loadRegs_run (s : State) (bytes : List Byte) : (s.loadRegs bytes).run = s.run := rfl
@[simp] theorem loadRegs_rndDraws (s : State) (bytes : List Byte) : (s.loadRegs bytes).rndDraws = s.rndDraws := rfl

end Sys2Proof.Machine.State
end

