-- ==== Sys2Proof/Laws/Ops.lean ====
section
/-! SUPPORT. One lemma per shared operation, saying once what it can do. -/

namespace Sys2Proof.Machine

/-! ### Operands and flags -/

@[simp] theorem toNat_trunc8 (n : Nat) : (trunc8 n).toNat = n % 256 := by simp [trunc8]

@[simp] theorem toNat_trunc16 (n : Nat) : (trunc16 n).toNat = n % 65536 := by simp [trunc16]

theorem toNat_zext16 {w : Nat} (v : BitVec w) (h : w ≤ 16) : (zext16 v).toNat = v.toNat := by
  have := v.isLt
  have := Nat.pow_le_pow_right (n := 2) (by decide) h
  simp only [zext16, BitVec.toNat_ofNat]
  exact Nat.mod_eq_of_lt (by omega)

@[simp] theorem toNat_zext16_byte (v : Byte) : (zext16 v).toNat = v.toNat := toNat_zext16 v (by decide)

@[simp] theorem toNat_zext16_addr (v : Addr12) : (zext16 v).toNat = v.toNat := toNat_zext16 v (by decide)

@[simp] theorem toNat_flag (b : Bool) : (flag b).toNat = if b then 1 else 0 := by cases b <;> rfl

@[simp] theorem length_bcdDigits (b : Byte) : (bcdDigits b).length = 3 := rfl

@[simp] theorem State.length_regsUpTo (s : State) (x : Reg) : (s.regsUpTo x).length = x.val + 1 := by
  simp only [State.regsUpTo, List.length_take, Vector.length_toList]
  omega

/-- The k-th of the registers stored is V[k] (43_index_memory R144). -/
theorem State.getD_regsUpTo (s : State) (x k : Reg) (h : k ≤ x) : (s.regsUpTo x).getD k.val 0 = s.getV k := by
  have hk : k.val < x.val + 1 := Nat.lt_succ_of_le h
  simp [State.regsUpTo, State.getV, List.getD_eq_getElem?_getD, hk]

/-! ### PC moves and faults -/

@[simp] theorem State.skipIf_pc (s : State) (b : Bool) : (s.skipIf b).pc = if b then s.pc + 2#16 else s.pc := by
  cases b <;> rfl

/-- A skip changes PC alone. -/
theorem State.skipIf_eq (s : State) (b : Bool) : s.skipIf b = s.setPC (if b then s.pc + 2#16 else s.pc) := by
  cases b <;> rfl

/-- Entering a fault writes PC and run and nothing else (60_exceptions R177). -/
theorem State.raise_eq (s : State) (k : FaultKind) (addr : Word) (w : Option Word) :
    s.raise k addr w = (s.setPC addr).setRun (.faulted k addr w) := rfl

/-- Two back and two forward. -/
@[simp] theorem advance_back (w : Word) : w + 2#16 - 2#16 = w := by simp

/-! ### Memory accesses of the core -/

/-- MemRead: the bytes, or the raise (20_memory R52). -/
theorem State.memRead_eq (s : State) (a n : Nat) :
    s.memRead a n = if n = 0 ∨ a + n ≤ params.memSize then some (s.mem.readAll a n) else none := by
  simp only [State.memRead, inBounds_iff]

/-- MemWrite: memory with the bytes stored and nothing else changed, or the raise (20_memory R52). -/
theorem State.memWrite_eq (s : State) (a : Nat) (vs : List Byte) :
    s.memWrite a vs =
      if vs.length = 0 ∨ a + vs.length ≤ params.memSize then some (s.setMem (s.mem.writeAll a vs)) else none := by
  simp only [State.memWrite, inBounds_iff]

/-- Fetch (20_memory R53, 40_step_cycle R91). -/
theorem State.fetch_eq (s : State) :
    s.fetch = if s.pc.toNat + 1 < params.memSize then
      some (wordOfBytes (s.mem.read s.pc.toNat) (s.mem.read (s.pc.toNat + 1))) else none := by
  simp only [State.fetch, State.memRead_eq, Memory.readAll]
  by_cases h : s.pc.toNat + 1 < params.memSize
  · simp only [if_pos h, if_pos (show 2 = 0 ∨ s.pc.toNat + 2 ≤ params.memSize by omega)]
  · simp only [if_neg h, if_neg (show ¬ (2 = 0 ∨ s.pc.toNat + 2 ≤ params.memSize) by omega)]

/-- Fetch reads PC and memory alone. -/
theorem State.fetch_congr {s t : State} (hp : t.pc = s.pc) (hm : t.mem = s.mem) : t.fetch = s.fetch := by
  rw [State.fetch_eq, State.fetch_eq, hp, hm]

/-- Big-endian (20_memory R53). -/
theorem toNat_wordOfBytes (b0 b1 : Byte) : (wordOfBytes b0 b1).toNat = 256 * b0.toNat + b1.toNat := by
  have := b1.isLt
  simp only [wordOfBytes, BitVec.toNat_append, Nat.shiftLeft_eq]
  rw [← Nat.shiftLeft_eq, ← Nat.shiftLeft_add_eq_or_of_lt (by simpa using b1.isLt), Nat.shiftLeft_eq]
  omega

theorem wordOfBytes_eq (b0 b1 : Byte) : wordOfBytes b0 b1 = BitVec.ofNat 16 (256 * b0.toNat + b1.toNat) := by
  apply BitVec.eq_of_toNat_eq
  have := b0.isLt
  have := b1.isLt
  rw [toNat_wordOfBytes, BitVec.toNat_ofNat]
  omega

/-- The two bytes of a word put it together again. -/
theorem wordOfBytes_bytesOfWord (op : Word) :
    wordOfBytes (BitVec.ofNat 8 (op.toNat / 256)) (BitVec.ofNat 8 op.toNat) = op := by
  apply BitVec.eq_of_toNat_eq
  have := op.isLt
  rw [toNat_wordOfBytes, BitVec.toNat_ofNat, BitVec.toNat_ofNat]
  omega

/-! ### Timers and the end of a Step -/

/-- One timer after a Tick: one less, never below zero (60_exceptions R182). -/
theorem toNat_decrement (b : Byte) : (if b = 0#8 then b else b - 1#8).toNat = b.toNat - 1 := by
  have := b.isLt
  split
  next h => simp [h]
  next h =>
    have h0 : b.toNat ≠ 0 := fun h' => h (BitVec.eq_of_toNat_eq h')
    rw [BitVec.toNat_sub]
    simp only [BitVec.toNat_ofNat]
    omega

theorem State.tick_of_running (s : State) (h : s.run = .running) :
    s.tick = (s.setDT (if s.dt = 0#8 then s.dt else s.dt - 1#8)).setST (if s.st = 0#8 then s.st else s.st - 1#8) := by
  simp only [State.tick, if_pos h]

theorem State.tick_of_stopped (s : State) (h : s.run ≠ .running) : s.tick = s := by
  simp only [State.tick, if_neg h]

/-- With `TIMER_PER_STEP` false a Step ends as execute leaves it (00_scope R8). -/
@[simp] theorem finishStep_false (o : Host.Outcome State Fault Refusal) : finishStep false o = o := by
  cases o <;> rfl

end Sys2Proof.Machine
end

