-- ==== Sys2Proof/Laws/Frame.lean ====
section
/-! SUPPORT. Frames: what each update changes, and how frames compose. -/

namespace Sys2Proof.Machine.State

theorem changesOnly_refl (s : State) (P : Comp → Prop) : s.changesOnly s P := fun c _ => by cases c <;> rfl

theorem changesOnly.mono {s t : State} {P Q : Comp → Prop} (h : s.changesOnly t P) (hpq : ∀ c, P c → Q c) :
    s.changesOnly t Q := fun c hc => h c fun hp => hc (hpq c hp)

theorem changesOnly.trans {s t u : State} {P : Comp → Prop} (h : s.changesOnly t P) (h' : t.changesOnly u P) :
    s.changesOnly u P := fun c hc => by
  have h1 := h c hc
  have h2 := h' c hc
  cases c <;> exact Eq.trans h2 h1

theorem changesOnly_setV (s : State) (x : Reg) (b : Byte) : s.changesOnly (s.setV x b) (· = .v x) := fun c hc => by
  cases c with
  | v y => simp only [agree, getV_setV]; rw [if_neg]; rintro rfl; exact hc rfl
  | _ => rfl

theorem changesOnly_setI (s : State) (w : Word) : s.changesOnly (s.setI w) (· = .i) := fun c hc => by
  cases c <;> first | rfl | exact absurd rfl hc

theorem changesOnly_setPC (s : State) (w : Word) : s.changesOnly (s.setPC w) (· = .pc) := fun c hc => by
  cases c <;> first | rfl | exact absurd rfl hc

theorem changesOnly_setSP (s : State) (w : Word) : s.changesOnly (s.setSP w) (· = .sp) := fun c hc => by
  cases c <;> first | rfl | exact absurd rfl hc

theorem changesOnly_setStack (s : State) (k : Fin 16) (w : Word) : s.changesOnly (s.setStack k w) (· = .stack k) :=
  fun c hc => by
  cases c with
  | stack j =>
    have hne : k.val ≠ j.val := fun h => hc (by rw [Fin.ext h])
    simp [agree, setStack, hne]
  | _ => rfl

theorem changesOnly_setDT (s : State) (b : Byte) : s.changesOnly (s.setDT b) (· = .dt) := fun c hc => by
  cases c <;> first | rfl | exact absurd rfl hc

theorem changesOnly_setST (s : State) (b : Byte) : s.changesOnly (s.setST b) (· = .st) := fun c hc => by
  cases c <;> first | rfl | exact absurd rfl hc

theorem changesOnly_setRun (s : State) (r : RunState) : s.changesOnly (s.setRun r) (· = .run) := fun c hc => by
  cases c <;> first | rfl | exact absurd rfl hc

theorem changesOnly_setDraws (s : State) (n : Nat) : s.changesOnly (s.setDraws n) (· = .draws) := fun c hc => by
  cases c <;> first | rfl | exact absurd rfl hc

/-- A new memory: the addresses that read otherwise. -/
theorem changesOnly_setMem (s : State) (m : Memory) (P : Comp → Prop)
    (h : ∀ a, ¬ P (.mem a) → m.read a = s.mem.read a) : s.changesOnly (s.setMem m) P := fun c hc => by
  cases c <;> first | rfl | exact h _ hc

/-- A new display buffer: the pixels that differ. -/
theorem changesOnly_setFB (s : State) (fb : FrameBuffer) (P : Comp → Prop)
    (h : ∀ p, ¬ P (.pixel p) → fb.pixel p = s.fb.pixel p) : s.changesOnly (s.setFB fb) P := fun c hc => by
  cases c <;> first | rfl | exact h _ hc

/-- A new key latch: the keys that differ. -/
theorem changesOnly_setKeys (s : State) (ks : BitVec 16) (P : Comp → Prop)
    (h : ∀ k : Key, ¬ P (.key k) → ks.getLsbD k.val = s.keyDown k) : s.changesOnly (s.setKeys ks) P := fun c hc => by
  cases c <;> first | rfl | exact h _ hc

/-- A load of registers: those the list reaches. -/
theorem changesOnly_loadRegs (s : State) (bytes : List Byte) (P : Comp → Prop)
    (h : ∀ x : Reg, x.val < bytes.length → P (.v x)) : s.changesOnly (s.loadRegs bytes) P := fun c hc => by
  cases c with
  | v x =>
    have hx : bytes.length ≤ x.val := Nat.le_of_not_lt fun hlt => hc (h x hlt)
    simp only [agree, getV_loadRegs, List.getD_eq_default _ _ hx]
  | _ => simp only [agree, keyDown, loadRegs_i, loadRegs_pc, loadRegs_sp, loadRegs_stack, loadRegs_dt, loadRegs_st,
      loadRegs_mem, loadRegs_fb, loadRegs_keys, loadRegs_run, loadRegs_rndDraws]

/-- A raise inside an instruction enters the fault (60_exceptions R177). -/
theorem entersFault_raiseIn (s : State) (k : FaultKind) (i : Instr) (op : Nat) (h : encode i = BitVec.ofNat 16 op) :
    s.entersFault (s.raiseIn k i) k op := by
  refine ⟨?_, rfl, ?_⟩
  · simp only [raiseIn, raise, setRun_run, h]
  · exact ((s.changesOnly_setPC _).mono (by simp +contextual)).trans
      ((changesOnly_setRun _ _).mono (by simp +contextual))

end Sys2Proof.Machine.State
end

