-- ==== Sys2Proof/Laws/Exec.lean ====
section
/-! SUPPORT. Everything `exec` can write, said once for all instructions: what each part of the state is after an
instruction that answers a next state. -/

namespace Sys2Proof.Machine

/-- Part by part: the instruction `ins` took s, in which PC is past it, to t. -/
structure ExecWrites (ins : Instr) (s t : State) : Prop where
  v : ∀ k, t.getV k = s.getV k ∨ mayWriteV k ins = true
  i : t.i = s.i ∨ (∃ nnn, ins = .ldI nnn) ∨ ∃ x, ins = .addIVx x ∨ ins = .ldFVx x ∨ ins = .ldMemVx x ∨ ins = .ldVxMem x
  pc : t.pc = s.pc ∨ (t.pc = s.pc + 2#16 ∧ isSkip ins = true) ∨
    (t.pc = s.pc - 2#16 ∧ ((∃ k, t = s.raiseIn k ins) ∨ ∃ x, ins = .ldVxK x)) ∨
    (∃ nnn : Addr12, t.pc = zext16 nnn ∧ (ins = .jp nnn ∨ ins = .call nnn)) ∨
    (∃ nnn : Addr12, t.pc = zext16 (s.getV 0) + zext16 nnn ∧ ins = .jpV0 nnn) ∨
    (∃ k : Fin 16, t.pc = s.stack[k.val]) ∧ ins = .ret
  sp : t.sp = s.sp ∨ (ins = .ret ∧ t.sp = s.sp - 1#16 ∧ s.sp ≠ 0#16) ∨
    ((∃ nnn, ins = .call nnn) ∧ t.sp = s.sp + 1#16 ∧ s.sp.toNat < 16)
  stack : t.stack = s.stack ∨ (∃ nnn, ins = .call nnn) ∧ ∃ k : Fin 16, k.val = s.sp.toNat ∧ t.stack = s.stack.set k.val s.pc
  dt : t.dt = s.dt ∨ ∃ x, ins = .ldDTVx x
  st : t.st = s.st ∨ ∃ x, ins = .ldSTVx x
  mem : t.mem = s.mem ∨ (s.mem.wf → t.mem.wf) ∧ ∃ x, ins = .ldBVx x ∨ ins = .ldMemVx x
  fb : t.fb = s.fb ∨ ins = .cls ∨ ∃ x y n, ins = .drw x y n
  keys : t.keys = s.keys
  run : t.run = s.run ∨ (ins = .exit ∧ t.run = .halted) ∨ ∃ k, t = s.raiseIn k ins
  rndDraws : t.rndDraws = s.rndDraws ∨ ∃ x kk, ins = .rnd x kk

namespace ExecWrites

/-- A fault writes PC and run alone (60_exceptions R177). -/
theorem of_raiseIn (s : State) (k : FaultKind) (i : Instr) : ExecWrites i s (s.raiseIn k i) where
  v _ := .inl rfl
  i := .inl rfl
  pc := .inr (.inr (.inl ⟨rfl, .inl ⟨k, rfl⟩⟩))
  sp := .inl rfl
  stack := .inl rfl
  dt := .inl rfl
  st := .inl rfl
  mem := .inl rfl
  fb := .inl rfl
  keys := rfl
  run := .inr (.inr ⟨k, rfl⟩)
  rndDraws := .inl rfl

/-- A skip writes PC alone. -/
theorem of_skipIf (s : State) (b : Bool) {i : Instr} (h : isSkip i = true) : ExecWrites i s (s.skipIf b) := by
  cases b
  · constructor <;> simp [State.skipIf]
  · constructor <;> simp [State.skipIf, h]

/-- An instruction that writes V[x] and no other part. -/
theorem of_setV (s : State) (x : Reg) (b : Byte) {i : Instr} (h : mayWriteV x i = true) :
    ExecWrites i s (s.setV x b) where
  v k := by
    by_cases hk : k = x
    · exact .inr (hk ▸ h)
    · exact .inl (by rw [State.getV_setV, if_neg (Ne.symm hk)])
  i := .inl rfl
  pc := .inl rfl
  sp := .inl rfl
  stack := .inl rfl
  dt := .inl rfl
  st := .inl rfl
  mem := .inl rfl
  fb := .inl rfl
  keys := rfl
  run := .inl rfl
  rndDraws := .inl rfl

/-- A flag instruction: VF, then V[x]. -/
theorem of_flagThenResult (s : State) (x : Reg) (f r : Byte) {i : Instr} (hx : mayWriteV x i = true)
    (hf : mayWriteV vf i = true) : ExecWrites i s (flagThenResult s x f r) where
  v k := by
    by_cases hk : k = x
    · exact .inr (hk ▸ hx)
    · by_cases hv : k = vf
      · exact .inr (hv ▸ hf)
      · exact .inl (by rw [flagThenResult, State.getV_setV, if_neg (Ne.symm hk), State.getV_setV, if_neg (Ne.symm hv)])
  i := .inl rfl
  pc := .inl rfl
  sp := .inl rfl
  stack := .inl rfl
  dt := .inl rfl
  st := .inl rfl
  mem := .inl rfl
  fb := .inl rfl
  keys := rfl
  run := .inl rfl
  rndDraws := .inl rfl

end ExecWrites

/-- What an instruction that answers a next state writes, whatever the instruction. -/
theorem exec_writes {i : Instr} {s t : State} (h : exec i s = .next t) : ExecWrites i s t := by
  cases i with
  | cls => cases h; constructor <;> simp
  | ret =>
    simp only [exec, execRet] at h
    split at h
    · cases h; exact .of_raiseIn _ _ _
    · split at h
      next h0 hk => cases h; constructor <;> simp [h0]; exact .inr (.inr (.inr ⟨⟨_, hk⟩, rfl⟩))
      next => cases h
  | exit => cases h; constructor <;> simp
  | sys nnn => cases h; constructor <;> simp
  | jp nnn => cases h; constructor <;> simp
  | call nnn =>
    simp only [exec, execCall] at h
    split at h
    next hk => cases h; constructor <;> simp [hk]; exact .inr ⟨⟨_, hk⟩, rfl, rfl⟩
    next => cases h; exact .of_raiseIn _ _ _
  | seByte x kk => cases h; exact .of_skipIf _ _ rfl
  | sneByte x kk => cases h; exact .of_skipIf _ _ rfl
  | seReg x y => cases h; exact .of_skipIf _ _ rfl
  | sneReg x y => cases h; exact .of_skipIf _ _ rfl
  | skp x => cases h; exact .of_skipIf _ _ rfl
  | sknp x => cases h; exact .of_skipIf _ _ rfl
  | ldByte x kk => cases h; exact .of_setV _ _ _ (by simp [mayWriteV])
  | addByte x kk => cases h; exact .of_setV _ _ _ (by simp [mayWriteV])
  | ldReg x y => cases h; exact .of_setV _ _ _ (by simp [mayWriteV])
  | orReg x y => cases h; exact .of_setV _ _ _ (by simp [mayWriteV])
  | andReg x y => cases h; exact .of_setV _ _ _ (by simp [mayWriteV])
  | xorReg x y => cases h; exact .of_setV _ _ _ (by simp [mayWriteV])
  | ldVxDT x => cases h; exact .of_setV _ _ _ (by simp [mayWriteV])
  | addReg x y => cases h; exact .of_flagThenResult _ _ _ _ (by simp [mayWriteV]) (by simp [mayWriteV])
  | subReg x y => cases h; exact .of_flagThenResult _ _ _ _ (by simp [mayWriteV]) (by simp [mayWriteV])
  | subnReg x y => cases h; exact .of_flagThenResult _ _ _ _ (by simp [mayWriteV]) (by simp [mayWriteV])
  | shr x y => cases h; exact .of_flagThenResult _ _ _ _ (by simp [mayWriteV]) (by simp [mayWriteV])
  | shl x y => cases h; exact .of_flagThenResult _ _ _ _ (by simp [mayWriteV]) (by simp [mayWriteV])
  | rnd x kk =>
    cases h
    constructor
    case v => exact fun k => by by_cases hk : x = k <;> simp [rndWith, mayWriteV, hk]
    all_goals simp [rndWith]
  | ldI nnn => cases h; constructor <;> simp
  | addIVx x => cases h; constructor <;> simp
  | ldFVx x => cases h; constructor <;> simp
  | jpV0 nnn => cases h; constructor <;> simp
  | ldDTVx x => cases h; constructor <;> simp
  | ldSTVx x => cases h; constructor <;> simp
  | drw x y n =>
    simp only [exec, execDrw, drawSprite] at h
    split at h
    · cases h; exact .of_raiseIn _ _ _
    · cases h
      constructor
      case v => exact fun k => by by_cases hk : vf = k <;> [simp [mayWriteV, ← hk]; simp [hk]]
      all_goals simp
  | ldVxK x =>
    simp only [exec, execLdVxK, waitKey] at h
    split at h
    · cases h; constructor <;> simp [State.rewind]
    · cases h; exact .of_setV _ _ _ (by simp [mayWriteV])
  | ldBVx x =>
    simp only [exec, execLdBVx, State.memWrite] at h
    split at h
    · cases h; exact .of_raiseIn _ _ _
    next hw =>
      cases h
      split at hw
      next hb =>
        cases hw
        constructor
        case mem => exact .inr ⟨fun h => Memory.wf_writeAll h hb, x, .inl rfl⟩
        all_goals simp
      next => cases hw
  | ldMemVx x =>
    simp only [exec, execLdMemVx, State.memWrite] at h
    split at h
    · cases h; exact .of_raiseIn _ _ _
    next hw =>
      cases h
      split at hw
      next hb =>
        cases hw
        constructor
        case mem => exact .inr ⟨fun h => Memory.wf_writeAll h hb, x, .inr rfl⟩
        all_goals simp [bumpI]
      next => cases hw
  | ldVxMem x =>
    simp only [exec, execLdVxMem, State.memRead] at h
    split at h
    · cases h; exact .of_raiseIn _ _ _
    next bytes hr =>
      cases h
      have hl : bytes.length = x.val + 1 := by
        split at hr
        · cases hr; exact Memory.length_readAll _ _ _
        · cases hr
      constructor <;> simp [bumpI]
      intro k
      by_cases hk : k ≤ x
      · exact .inr (by simpa [mayWriteV] using hk)
      · have : x.val < k.val := Nat.lt_of_not_le hk
        exact .inl (List.getD_eq_default _ _ (by omega))

end Sys2Proof.Machine
end

