-- ==== Sys2Proof/Laws/PerInstr.lean ====
section
/-! SUPPORT. Facts about every instruction as syntax, one lemma per constructor. -/

namespace Sys2Proof.Laws.RowBuildsBack

/-- Some row of the opcode map selects the instruction's word and builds the instruction back from it (30_encoding
R72, R74): no operand bit of an encoding is dropped. -/
def Statement (i : Instr) : Prop :=
  ∃ row ∈ opcodeMap true, row.selects (encode i) = true ∧ row.build (encode i) = i

theorem cls : Statement (.cls) := by
  exact ⟨⟨"00E0", 0x00E0, 0xFFFF, fun _ => .cls⟩, by simp [opcodeMap, rowsFamily0], by decide, rfl⟩

theorem ret : Statement (.ret) := by
  exact ⟨⟨"00EE", 0x00EE, 0xFFFF, fun _ => .ret⟩, by simp [opcodeMap, rowsFamily0], by decide, rfl⟩

theorem exit : Statement (.exit) := by
  exact ⟨⟨"00FD", 0x00FD, 0xFFFF, fun _ => .exit⟩, by simp [opcodeMap, rowsFamily0], by decide, rfl⟩

theorem sys (nnn : Addr12) : Statement (.sys nnn) := by
  have h := toNat_formatNNN (p := 0x0) (by decide) nnn
  refine ⟨⟨"0nnn", 0x0000, 0xF000, fun op => .sys (fieldNNN op)⟩, by simp [opcodeMap, rowsFamily0], ?_, ?_⟩
  · rw [selects_F000 _ _ _ _ (by decide), encode, h]
    simp
    omega
  · simp only [encode]
    rw [fieldNNN_of h]

theorem jp (nnn : Addr12) : Statement (.jp nnn) := by
  have h := toNat_formatNNN (p := 0x1) (by decide) nnn
  refine ⟨⟨"1nnn", 0x1000, 0xF000, fun op => .jp (fieldNNN op)⟩, by simp [opcodeMap, rowsFamily1to7], ?_, ?_⟩
  · rw [selects_F000 _ _ _ _ (by decide), encode, h]
    simp
    omega
  · simp only [encode]
    rw [fieldNNN_of h]

theorem call (nnn : Addr12) : Statement (.call nnn) := by
  have h := toNat_formatNNN (p := 0x2) (by decide) nnn
  refine ⟨⟨"2nnn", 0x2000, 0xF000, fun op => .call (fieldNNN op)⟩, by simp [opcodeMap, rowsFamily1to7], ?_, ?_⟩
  · rw [selects_F000 _ _ _ _ (by decide), encode, h]
    simp
    omega
  · simp only [encode]
    rw [fieldNNN_of h]

theorem seByte (x : Reg) (kk : Byte) : Statement (.seByte x kk) := by
  have h := toNat_formatXKK (p := 0x3) (by decide) x kk
  refine ⟨⟨"3xkk", 0x3000, 0xF000, fun op => .seByte (fieldX op) (fieldKK op)⟩, by simp [opcodeMap, rowsFamily1to7], ?_, ?_⟩
  · rw [selects_F000 _ _ _ _ (by decide), encode, h]
    simp
    omega
  · simp only [encode]
    rw [fieldX_of h kk.isLt, fieldKK_of h]

theorem sneByte (x : Reg) (kk : Byte) : Statement (.sneByte x kk) := by
  have h := toNat_formatXKK (p := 0x4) (by decide) x kk
  refine ⟨⟨"4xkk", 0x4000, 0xF000, fun op => .sneByte (fieldX op) (fieldKK op)⟩, by simp [opcodeMap, rowsFamily1to7], ?_, ?_⟩
  · rw [selects_F000 _ _ _ _ (by decide), encode, h]
    simp
    omega
  · simp only [encode]
    rw [fieldX_of h kk.isLt, fieldKK_of h]

theorem seReg (x y : Reg) : Statement (.seReg x y) := by
  have h := toNat_formatXYN (p := 0x5) (n := 0x0) (by decide) (by decide) x y
  refine ⟨⟨"5xy0", 0x5000, 0xF00F, fun op => .seReg (fieldX op) (fieldY op)⟩, by simp [opcodeMap, rowsFamily1to7], ?_, ?_⟩
  · rw [selects_F00F _ _ _ _ (by decide), encode, h]
    simp
    omega
  · simp only [encode]
    rw [fieldX_of (x := x) (p := 0x5) (r := 16 * y.val + 0x0) (by omega) (by omega), fieldY_of h (by decide)]

theorem ldByte (x : Reg) (kk : Byte) : Statement (.ldByte x kk) := by
  have h := toNat_formatXKK (p := 0x6) (by decide) x kk
  refine ⟨⟨"6xkk", 0x6000, 0xF000, fun op => .ldByte (fieldX op) (fieldKK op)⟩, by simp [opcodeMap, rowsFamily1to7], ?_, ?_⟩
  · rw [selects_F000 _ _ _ _ (by decide), encode, h]
    simp
    omega
  · simp only [encode]
    rw [fieldX_of h kk.isLt, fieldKK_of h]

theorem addByte (x : Reg) (kk : Byte) : Statement (.addByte x kk) := by
  have h := toNat_formatXKK (p := 0x7) (by decide) x kk
  refine ⟨⟨"7xkk", 0x7000, 0xF000, fun op => .addByte (fieldX op) (fieldKK op)⟩, by simp [opcodeMap, rowsFamily1to7], ?_, ?_⟩
  · rw [selects_F000 _ _ _ _ (by decide), encode, h]
    simp
    omega
  · simp only [encode]
    rw [fieldX_of h kk.isLt, fieldKK_of h]

theorem ldReg (x y : Reg) : Statement (.ldReg x y) := by
  have h := toNat_formatXYN (p := 0x8) (n := 0x0) (by decide) (by decide) x y
  refine ⟨⟨"8xy0", 0x8000, 0xF00F, fun op => .ldReg (fieldX op) (fieldY op)⟩, by simp [opcodeMap, rowsFamily8], ?_, ?_⟩
  · rw [selects_F00F _ _ _ _ (by decide), encode, h]
    simp
    omega
  · simp only [encode]
    rw [fieldX_of (x := x) (p := 0x8) (r := 16 * y.val + 0x0) (by omega) (by omega), fieldY_of h (by decide)]

theorem orReg (x y : Reg) : Statement (.orReg x y) := by
  have h := toNat_formatXYN (p := 0x8) (n := 0x1) (by decide) (by decide) x y
  refine ⟨⟨"8xy1", 0x8001, 0xF00F, fun op => .orReg (fieldX op) (fieldY op)⟩, by simp [opcodeMap, rowsFamily8], ?_, ?_⟩
  · rw [selects_F00F _ _ _ _ (by decide), encode, h]
    simp
    omega
  · simp only [encode]
    rw [fieldX_of (x := x) (p := 0x8) (r := 16 * y.val + 0x1) (by omega) (by omega), fieldY_of h (by decide)]

theorem andReg (x y : Reg) : Statement (.andReg x y) := by
  have h := toNat_formatXYN (p := 0x8) (n := 0x2) (by decide) (by decide) x y
  refine ⟨⟨"8xy2", 0x8002, 0xF00F, fun op => .andReg (fieldX op) (fieldY op)⟩, by simp [opcodeMap, rowsFamily8], ?_, ?_⟩
  · rw [selects_F00F _ _ _ _ (by decide), encode, h]
    simp
    omega
  · simp only [encode]
    rw [fieldX_of (x := x) (p := 0x8) (r := 16 * y.val + 0x2) (by omega) (by omega), fieldY_of h (by decide)]

theorem xorReg (x y : Reg) : Statement (.xorReg x y) := by
  have h := toNat_formatXYN (p := 0x8) (n := 0x3) (by decide) (by decide) x y
  refine ⟨⟨"8xy3", 0x8003, 0xF00F, fun op => .xorReg (fieldX op) (fieldY op)⟩, by simp [opcodeMap, rowsFamily8], ?_, ?_⟩
  · rw [selects_F00F _ _ _ _ (by decide), encode, h]
    simp
    omega
  · simp only [encode]
    rw [fieldX_of (x := x) (p := 0x8) (r := 16 * y.val + 0x3) (by omega) (by omega), fieldY_of h (by decide)]

theorem addReg (x y : Reg) : Statement (.addReg x y) := by
  have h := toNat_formatXYN (p := 0x8) (n := 0x4) (by decide) (by decide) x y
  refine ⟨⟨"8xy4", 0x8004, 0xF00F, fun op => .addReg (fieldX op) (fieldY op)⟩, by simp [opcodeMap, rowsFamily8], ?_, ?_⟩
  · rw [selects_F00F _ _ _ _ (by decide), encode, h]
    simp
    omega
  · simp only [encode]
    rw [fieldX_of (x := x) (p := 0x8) (r := 16 * y.val + 0x4) (by omega) (by omega), fieldY_of h (by decide)]

theorem subReg (x y : Reg) : Statement (.subReg x y) := by
  have h := toNat_formatXYN (p := 0x8) (n := 0x5) (by decide) (by decide) x y
  refine ⟨⟨"8xy5", 0x8005, 0xF00F, fun op => .subReg (fieldX op) (fieldY op)⟩, by simp [opcodeMap, rowsFamily8], ?_, ?_⟩
  · rw [selects_F00F _ _ _ _ (by decide), encode, h]
    simp
    omega
  · simp only [encode]
    rw [fieldX_of (x := x) (p := 0x8) (r := 16 * y.val + 0x5) (by omega) (by omega), fieldY_of h (by decide)]

theorem shr (x y : Reg) : Statement (.shr x y) := by
  have h := toNat_formatXYN (p := 0x8) (n := 0x6) (by decide) (by decide) x y
  refine ⟨⟨"8xy6", 0x8006, 0xF00F, fun op => .shr (fieldX op) (fieldY op)⟩, by simp [opcodeMap, rowsFamily8], ?_, ?_⟩
  · rw [selects_F00F _ _ _ _ (by decide), encode, h]
    simp
    omega
  · simp only [encode]
    rw [fieldX_of (x := x) (p := 0x8) (r := 16 * y.val + 0x6) (by omega) (by omega), fieldY_of h (by decide)]

theorem subnReg (x y : Reg) : Statement (.subnReg x y) := by
  have h := toNat_formatXYN (p := 0x8) (n := 0x7) (by decide) (by decide) x y
  refine ⟨⟨"8xy7", 0x8007, 0xF00F, fun op => .subnReg (fieldX op) (fieldY op)⟩, by simp [opcodeMap, rowsFamily8], ?_, ?_⟩
  · rw [selects_F00F _ _ _ _ (by decide), encode, h]
    simp
    omega
  · simp only [encode]
    rw [fieldX_of (x := x) (p := 0x8) (r := 16 * y.val + 0x7) (by omega) (by omega), fieldY_of h (by decide)]

theorem shl (x y : Reg) : Statement (.shl x y) := by
  have h := toNat_formatXYN (p := 0x8) (n := 0xE) (by decide) (by decide) x y
  refine ⟨⟨"8xyE", 0x800E, 0xF00F, fun op => .shl (fieldX op) (fieldY op)⟩, by simp [opcodeMap, rowsFamily8], ?_, ?_⟩
  · rw [selects_F00F _ _ _ _ (by decide), encode, h]
    simp
    omega
  · simp only [encode]
    rw [fieldX_of (x := x) (p := 0x8) (r := 16 * y.val + 0xE) (by omega) (by omega), fieldY_of h (by decide)]

theorem sneReg (x y : Reg) : Statement (.sneReg x y) := by
  have h := toNat_formatXYN (p := 0x9) (n := 0x0) (by decide) (by decide) x y
  refine ⟨⟨"9xy0", 0x9000, 0xF00F, fun op => .sneReg (fieldX op) (fieldY op)⟩, by simp [opcodeMap, rowsFamily9toD], ?_, ?_⟩
  · rw [selects_F00F _ _ _ _ (by decide), encode, h]
    simp
    omega
  · simp only [encode]
    rw [fieldX_of (x := x) (p := 0x9) (r := 16 * y.val + 0x0) (by omega) (by omega), fieldY_of h (by decide)]

theorem ldI (nnn : Addr12) : Statement (.ldI nnn) := by
  have h := toNat_formatNNN (p := 0xA) (by decide) nnn
  refine ⟨⟨"Annn", 0xA000, 0xF000, fun op => .ldI (fieldNNN op)⟩, by simp [opcodeMap, rowsFamily9toD], ?_, ?_⟩
  · rw [selects_F000 _ _ _ _ (by decide), encode, h]
    simp
    omega
  · simp only [encode]
    rw [fieldNNN_of h]

theorem jpV0 (nnn : Addr12) : Statement (.jpV0 nnn) := by
  have h := toNat_formatNNN (p := 0xB) (by decide) nnn
  refine ⟨⟨"Bnnn", 0xB000, 0xF000, fun op => .jpV0 (fieldNNN op)⟩, by simp [opcodeMap, rowsFamily9toD], ?_, ?_⟩
  · rw [selects_F000 _ _ _ _ (by decide), encode, h]
    simp
    omega
  · simp only [encode]
    rw [fieldNNN_of h]

theorem rnd (x : Reg) (kk : Byte) : Statement (.rnd x kk) := by
  have h := toNat_formatXKK (p := 0xC) (by decide) x kk
  refine ⟨⟨"Cxkk", 0xC000, 0xF000, fun op => .rnd (fieldX op) (fieldKK op)⟩, by simp [opcodeMap, rowsFamily9toD], ?_, ?_⟩
  · rw [selects_F000 _ _ _ _ (by decide), encode, h]
    simp
    omega
  · simp only [encode]
    rw [fieldX_of h kk.isLt, fieldKK_of h]

theorem drw (x y : Reg) (n : Fin 16) : Statement (.drw x y n) := by
  have h := toNat_formatXYN (p := 0xD) (by decide) n.isLt x y
  refine ⟨⟨"Dxyn", 0xD000, 0xF000, fun op => .drw (fieldX op) (fieldY op) (fieldN op)⟩, by simp [opcodeMap, rowsFamily9toD], ?_, ?_⟩
  · rw [selects_F000 _ _ _ _ (by decide), encode, h]
    simp
    omega
  · simp only [encode]
    rw [fieldX_of (x := x) (p := 0xD) (r := 16 * y.val + n.val) (by omega) (by omega), fieldY_of h n.isLt, fieldN_of h]

theorem skp (x : Reg) : Statement (.skp x) := by
  have h := toNat_formatX (p := 0xE) (kk := 0x9E) (by decide) (by decide) x
  refine ⟨⟨"Ex9E", 0xE09E, 0xF0FF, fun op => .skp (fieldX op)⟩, by simp [opcodeMap, rowsFamilyE], ?_, ?_⟩
  · rw [selects_F0FF _ _ _ _ (by decide), encode, h]
    simp
    omega
  · simp only [encode]
    rw [fieldX_of h (by decide)]

theorem sknp (x : Reg) : Statement (.sknp x) := by
  have h := toNat_formatX (p := 0xE) (kk := 0xA1) (by decide) (by decide) x
  refine ⟨⟨"ExA1", 0xE0A1, 0xF0FF, fun op => .sknp (fieldX op)⟩, by simp [opcodeMap, rowsFamilyE], ?_, ?_⟩
  · rw [selects_F0FF _ _ _ _ (by decide), encode, h]
    simp
    omega
  · simp only [encode]
    rw [fieldX_of h (by decide)]

theorem ldVxDT (x : Reg) : Statement (.ldVxDT x) := by
  have h := toNat_formatX (p := 0xF) (kk := 0x07) (by decide) (by decide) x
  refine ⟨⟨"Fx07", 0xF007, 0xF0FF, fun op => .ldVxDT (fieldX op)⟩, by simp [opcodeMap, rowsFamilyF], ?_, ?_⟩
  · rw [selects_F0FF _ _ _ _ (by decide), encode, h]
    simp
    omega
  · simp only [encode]
    rw [fieldX_of h (by decide)]

theorem ldVxK (x : Reg) : Statement (.ldVxK x) := by
  have h := toNat_formatX (p := 0xF) (kk := 0x0A) (by decide) (by decide) x
  refine ⟨⟨"Fx0A", 0xF00A, 0xF0FF, fun op => .ldVxK (fieldX op)⟩, by simp [opcodeMap, rowsFamilyF], ?_, ?_⟩
  · rw [selects_F0FF _ _ _ _ (by decide), encode, h]
    simp
    omega
  · simp only [encode]
    rw [fieldX_of h (by decide)]

theorem ldDTVx (x : Reg) : Statement (.ldDTVx x) := by
  have h := toNat_formatX (p := 0xF) (kk := 0x15) (by decide) (by decide) x
  refine ⟨⟨"Fx15", 0xF015, 0xF0FF, fun op => .ldDTVx (fieldX op)⟩, by simp [opcodeMap, rowsFamilyF], ?_, ?_⟩
  · rw [selects_F0FF _ _ _ _ (by decide), encode, h]
    simp
    omega
  · simp only [encode]
    rw [fieldX_of h (by decide)]

theorem ldSTVx (x : Reg) : Statement (.ldSTVx x) := by
  have h := toNat_formatX (p := 0xF) (kk := 0x18) (by decide) (by decide) x
  refine ⟨⟨"Fx18", 0xF018, 0xF0FF, fun op => .ldSTVx (fieldX op)⟩, by simp [opcodeMap, rowsFamilyF], ?_, ?_⟩
  · rw [selects_F0FF _ _ _ _ (by decide), encode, h]
    simp
    omega
  · simp only [encode]
    rw [fieldX_of h (by decide)]

theorem addIVx (x : Reg) : Statement (.addIVx x) := by
  have h := toNat_formatX (p := 0xF) (kk := 0x1E) (by decide) (by decide) x
  refine ⟨⟨"Fx1E", 0xF01E, 0xF0FF, fun op => .addIVx (fieldX op)⟩, by simp [opcodeMap, rowsFamilyF], ?_, ?_⟩
  · rw [selects_F0FF _ _ _ _ (by decide), encode, h]
    simp
    omega
  · simp only [encode]
    rw [fieldX_of h (by decide)]

theorem ldFVx (x : Reg) : Statement (.ldFVx x) := by
  have h := toNat_formatX (p := 0xF) (kk := 0x29) (by decide) (by decide) x
  refine ⟨⟨"Fx29", 0xF029, 0xF0FF, fun op => .ldFVx (fieldX op)⟩, by simp [opcodeMap, rowsFamilyF], ?_, ?_⟩
  · rw [selects_F0FF _ _ _ _ (by decide), encode, h]
    simp
    omega
  · simp only [encode]
    rw [fieldX_of h (by decide)]

theorem ldBVx (x : Reg) : Statement (.ldBVx x) := by
  have h := toNat_formatX (p := 0xF) (kk := 0x33) (by decide) (by decide) x
  refine ⟨⟨"Fx33", 0xF033, 0xF0FF, fun op => .ldBVx (fieldX op)⟩, by simp [opcodeMap, rowsFamilyF], ?_, ?_⟩
  · rw [selects_F0FF _ _ _ _ (by decide), encode, h]
    simp
    omega
  · simp only [encode]
    rw [fieldX_of h (by decide)]

theorem ldMemVx (x : Reg) : Statement (.ldMemVx x) := by
  have h := toNat_formatX (p := 0xF) (kk := 0x55) (by decide) (by decide) x
  refine ⟨⟨"Fx55", 0xF055, 0xF0FF, fun op => .ldMemVx (fieldX op)⟩, by simp [opcodeMap, rowsFamilyF], ?_, ?_⟩
  · rw [selects_F0FF _ _ _ _ (by decide), encode, h]
    simp
    omega
  · simp only [encode]
    rw [fieldX_of h (by decide)]

theorem ldVxMem (x : Reg) : Statement (.ldVxMem x) := by
  have h := toNat_formatX (p := 0xF) (kk := 0x65) (by decide) (by decide) x
  refine ⟨⟨"Fx65", 0xF065, 0xF0FF, fun op => .ldVxMem (fieldX op)⟩, by simp [opcodeMap, rowsFamilyF], ?_, ?_⟩
  · rw [selects_F0FF _ _ _ _ (by decide), encode, h]
    simp
    omega
  · simp only [encode]
    rw [fieldX_of h (by decide)]

end Sys2Proof.Laws.RowBuildsBack
end

