-- ==== Sys2Proof/Laws/Step.lean ====
section
/-! SUPPORT. Everything a Step can do, said once (spec 40_step_cycle R90). -/

namespace Sys2Proof.Machine

theorem step_of_stopped {s : State} (h : s.run ≠ .running) : step s = .next s := by
  unfold step
  split
  · exact absurd ‹_› h
  · rfl
  · rfl

theorem step_of_no_fetch {s : State} (h : s.run = .running) (hf : s.fetch = none) : step s = .next s.fetchFault := by
  simp only [step, h, hf]

theorem step_of_illegal {s : State} {op : Word} {e : DecodeError} (h : s.run = .running) (hf : s.fetch = some op)
    (hd : decode op = .error e) : step s = .next (s.decodeFault op) := by
  simp only [step, h, hf, hd]

theorem step_of_decode {s : State} {op : Word} {i : Instr} (h : s.run = .running) (hf : s.fetch = some op)
    (hd : decode op = .ok i) : step s = exec i s.advance := by
  simp only [step, h, hf, hd, finishStep_false]

/-- The four ways a Step answers a next state: a stopped machine stays, the fetch faults, the decode faults, or the
decoded instruction runs with PC past it. -/
theorem step_cases {s t : State} (h : step s = .next t) :
    (s.run ≠ .running ∧ t = s) ∨
    (s.run = .running ∧ s.fetch = none ∧ t = s.fetchFault) ∨
    (∃ op e, s.run = .running ∧ s.fetch = some op ∧ decode op = .error e ∧ t = s.decodeFault op) ∨
    (∃ op i, s.run = .running ∧ s.fetch = some op ∧ decode op = .ok i ∧ exec i s.advance = .next t) := by
  by_cases hr : s.run = .running
  · cases hf : s.fetch with
    | none =>
      rw [step_of_no_fetch hr hf] at h
      exact .inr (.inl ⟨hr, rfl, (Host.Outcome.next.inj h).symm⟩)
    | some op =>
      cases hd : decode op with
      | error e =>
        rw [step_of_illegal hr hf hd] at h
        exact .inr (.inr (.inl ⟨op, e, hr, rfl, hd, (Host.Outcome.next.inj h).symm⟩))
      | ok i =>
        rw [step_of_decode hr hf hd] at h
        exact .inr (.inr (.inr ⟨op, i, hr, rfl, hd, h⟩))
  · rw [step_of_stopped hr] at h
    exact .inl ⟨hr, (Host.Outcome.next.inj h).symm⟩

end Sys2Proof.Machine
end

