-- ==== Sys2Proof/Tests/Slice0.lean ====
section
/-! SUPPORT. The model's own tests: one Step each, on small states, with the vectors of spec/95_test_vectors.md (their
numbers stand in the docstrings) or values worked out from a rule; and the witnesses: for every statement with
hypotheses, concrete values that meet them all, at the boundaries where its clauses meet. -/

open Sys2Proof Sys2Proof.Machine Sys2Proof.Claims

namespace Sys2Proof.Tests

/-! ### Helpers -/

/-- The reset machine with PC, I and SP set. -/
def machine (pc i sp : Nat) : State := ((State.reset.setPC (word pc)).setI (word i)).setSP (word sp)

/-- The reset machine with two registers set. -/
def regs (x : Reg) (a : Byte) (y : Reg) (b : Byte) : State := (State.reset.setV x a).setV y b

/-- The state an outcome answers; the state before where it answers none. -/
def stateOf (s : State) : Host.Outcome State Fault Refusal → State
  | .next t => t
  | .fault _ => s
  | .refused _ => s

/-- One Step of the word op placed at PC. -/
def after (s : State) (op : Nat) : State := stateOf s (step (s.withFetchWord 16 op))

/-- One event. -/
def afterEvent (s : State) (e : Event) : State := stateOf s (applyEvent e s)

/-- The display with these pixels on. -/
def lit (ps : List Nat) : FrameBuffer := ps.foldl FrameBuffer.flip FrameBuffer.clear

/-- A machine about to draw: V0 and V1 the position, the sprite at 0x300. -/
def canvas (x y : Byte) (sprite : List Byte) (ps : List Nat) : State :=
  (((regs 0 x 1 y).setI 0x300).setMem (Memory.writeAll [] 0x300 sprite)).setFB (lit ps)

/-! ### Well-formedness (30_encoding R75, R84) -/

/-- SYS at 0x0E0, 0x0EE and 0x0FD has another instruction's word. -/
theorem test_wf_refuses_sys_at_named_words :
    (Instr.sys 0x0E0).wf = false ∧ (Instr.sys 0x0EE).wf = false ∧ (Instr.sys 0x0FD).wf = false ∧
    (Instr.sys 0x0E1).wf = true ∧ (Instr.sys 0xFFF).wf = true := by decide

/-- Without `HAS_EXIT` there is no EXIT, and SYS 0x0FD has its word (00_scope R11). -/
theorem test_wf_without_exit :
    Instr.exit.wfWith false = false ∧ Instr.exit.wf = true ∧ (Instr.sys 0x0FD).wfWith false = true ∧
    (Instr.sys 0x0EE).wfWith false = false := by decide

/-! ### Decoding: words written out from the patterns of 30_encoding R74 -/

theorem test_decode_family0 :
    decode 0b0000000011100000 = .ok .cls ∧ decode 0b0000000011101110 = .ok .ret ∧
    decode 0b0000000011111101 = .ok .exit ∧ decode 0b0000000100100011 = .ok (.sys 0x123) ∧
    decode 0x00FE = .ok (.sys 0x0FE) ∧ decodeWith false 0x00FD = .ok (.sys 0x0FD) := by decide

theorem test_decode_jumps_and_skips :
    decode 0b0001001000110100 = .ok (.jp 0x234) ∧ decode 0b0010001100000000 = .ok (.call 0x300) ∧
    decode 0b0011001100101010 = .ok (.seByte 3 0x2A) ∧ decode 0b0100001100101010 = .ok (.sneByte 3 0x2A) ∧
    decode 0b0101000100100000 = .ok (.seReg 1 2) ∧ decode 0b1001000100100000 = .ok (.sneReg 1 2) ∧
    decode 0b1011001011111111 = .ok (.jpV0 0x2FF) := by decide

theorem test_decode_loads_and_alu :
    decode 0b0110101011110110 = .ok (.ldByte 10 0xF6) ∧ decode 0b0111000000000011 = .ok (.addByte 0 3) ∧
    decode 0b1000000100100000 = .ok (.ldReg 1 2) ∧ decode 0b1000000100100001 = .ok (.orReg 1 2) ∧
    decode 0b1000000100100010 = .ok (.andReg 1 2) ∧ decode 0b1000000100100011 = .ok (.xorReg 1 2) ∧
    decode 0b1000000100100100 = .ok (.addReg 1 2) ∧ decode 0b1000000100100101 = .ok (.subReg 1 2) ∧
    decode 0b1000000100100110 = .ok (.shr 1 2) ∧ decode 0b1000000100100111 = .ok (.subnReg 1 2) ∧
    decode 0b1000000100101110 = .ok (.shl 1 2) ∧ decode 0b1100001100001111 = .ok (.rnd 3 0x0F) := by decide

theorem test_decode_index_display_keys_timers :
    decode 0b1010001100000000 = .ok (.ldI 0x300) ∧ decode 0b1101010110100111 = .ok (.drw 5 10 7) ∧
    decode 0b1110010010011110 = .ok (.skp 4) ∧ decode 0b1110010010100001 = .ok (.sknp 4) ∧
    decode 0b1111010100000111 = .ok (.ldVxDT 5) ∧ decode 0b1111010100001010 = .ok (.ldVxK 5) ∧
    decode 0b1111010100010101 = .ok (.ldDTVx 5) ∧ decode 0b1111010100011000 = .ok (.ldSTVx 5) ∧
    decode 0b1111010100011110 = .ok (.addIVx 5) ∧ decode 0b1111010100101001 = .ok (.ldFVx 5) ∧
    decode 0b1111010100110011 = .ok (.ldBVx 5) ∧ decode 0b1111010101010101 = .ok (.ldMemVx 5) ∧
    decode 0b1111010101100101 = .ok (.ldVxMem 5) := by decide

/-- The illegal words of 95_test_vectors 2.1, each refused under the name of its family. -/
theorem test_decode_refuses_illegal_words :
    decode 0x512F = .error (.illegal5 0x512F) ∧ decode 0x8AB8 = .error (.illegal8 0x8AB8) ∧
    decode 0x8ABD = .error (.illegal8 0x8ABD) ∧ decode 0x8ABF = .error (.illegal8 0x8ABF) ∧
    decode 0x9AB1 = .error (.illegal9 0x9AB1) ∧ decode 0xE19F = .error (.illegalE 0xE19F) ∧
    decode 0xE100 = .error (.illegalE 0xE100) ∧ decode 0xE1FF = .error (.illegalE 0xE1FF) ∧
    decode 0xF100 = .error (.illegalF 0xF100) ∧ decode 0xF175 = .error (.illegalF 0xF175) ∧
    decode 0xF1FF = .error (.illegalF 0xF1FF) := by decide

/-- Two bytes, the high byte first; fewer are refused (30_encoding R70). -/
theorem test_decode_bytes :
    decodeBytes [0x12, 0x34, 0x56] = .ok (.jp 0x234, [0x56]) ∧ decodeBytes [0x12] = .error .truncated ∧
    decodeBytes [] = .error .truncated ∧ encodeBytes (.drw 5 10 7) = [0xD5, 0xA7] ∧
    decodeTableWord 16 0xD5A7 = some (.drw 5 10 7) ∧ decodeTableWord 16 0x512F = none := by decide

/-! ### The Step (95_test_vectors 2.1) -/

/-- F1, F2, F3: big-endian, any parity, up to PC = 4093. -/
theorem test_fetch :
    (after State.reset 0x1234).pc = 0x234 ∧ (after (machine 0x201 0 0) 0x602A).getV 0 = 0x2A ∧
    (after (machine 0x201 0 0) 0x602A).pc = 0x203 ∧
    (stateOf State.reset (step (machine 4093 0 0))).pc = 4095 := by decide

/-- F4, F5: the fetch fault records PC and no word. -/
theorem test_fetch_fault :
    (stateOf State.reset (step (machine 4094 0 0))).run = .faulted .memoryOutOfBounds 0x0FFE none ∧
    (stateOf State.reset (step (machine 4094 0 0))).pc = 4094 ∧
    (stateOf State.reset (step (machine 0x10FE 0 0))).run = .faulted .memoryOutOfBounds 0x10FE none := by decide

/-- F8, F7: an illegal word faults with PC at it, and the stopped machine stays. -/
theorem test_illegal_word_fault :
    (after State.reset 0x5121).run = .faulted .unknownOpcode 0x200 (some 0x5121) ∧
    (after State.reset 0x5121).pc = 0x200 ∧
    stateOf State.reset (step (after State.reset 0x5121)) = after State.reset 0x5121 := by decide

/-- The word is stored where the Step fetches it, and nothing else is. -/
theorem test_withFetchWord :
    State.reset.withFetchWord 16 0x1234 = State.reset.setMem [(0x200, 0x12), (0x201, 0x34)] := by decide

/-! ### Control flow (95_test_vectors 2.2) -/

/-- C1. -/
theorem test_sys : after State.reset 0x0123 = (State.reset.withFetchWord 16 0x0123).setPC 0x202 := by decide

/-- C2: the popped entry keeps its value. -/
theorem test_ret :
    (after ((machine 0x300 0 1).setStack 0 0x206) 0x00EE).pc = 0x206 ∧
    (after ((machine 0x300 0 1).setStack 0 0x206) 0x00EE).sp = 0 ∧
    (after ((machine 0x300 0 1).setStack 0 0x206) 0x00EE).stack[0] = 0x206 := by decide

/-- C3 and program P5; an SP that no run reaches stops the model. -/
theorem test_ret_on_an_empty_stack :
    (after State.reset 0x00EE).run = .faulted .stackUnderflow 0x200 (some 0x00EE) ∧
    (after State.reset 0x00EE).pc = 0x200 ∧ (after State.reset 0x00EE).sp = 0 ∧
    (match exec .ret (machine 0x200 0 17) with
      | .fault f => some f
      | .next _ => none
      | .refused _ => none) = some Fault.stackPointerOutOfRange := by decide

/-- C4. -/
theorem test_exit :
    (after (machine 0x20C 0 0) 0x00FD).run = .halted ∧ (after (machine 0x20C 0 0) 0x00FD).pc = 0x20E := by decide

/-- C5: a jump to itself repeats the state. -/
theorem test_jp : after (machine 0x204 0 0) 0x1204 = (machine 0x204 0 0).withFetchWord 16 0x1204 := by decide

/-- C6, C7. -/
theorem test_call :
    (after State.reset 0x2300).stack[0] = 0x202 ∧ (after State.reset 0x2300).sp = 1 ∧
    (after State.reset 0x2300).pc = 0x300 ∧ (after (machine 0x280 0 15) 0x2400).stack[15] = 0x282 ∧
    (after (machine 0x280 0 15) 0x2400).sp = 16 ∧ (after (machine 0x280 0 15) 0x2400).pc = 0x400 := by decide

/-- C8. -/
theorem test_call_on_a_full_stack :
    (after (machine 0x280 0 16) 0x2400).run = .faulted .stackOverflow 0x280 (some 0x2400) ∧
    (after (machine 0x280 0 16) 0x2400).sp = 16 ∧ (after (machine 0x280 0 16) 0x2400).pc = 0x280 := by decide

/-- C10, C11, C21: the skip may leave PC past memory. -/
theorem test_seByte :
    (after ((machine 0x210 0 0).setV 3 0x2A) 0x332A).pc = 0x214 ∧
    (after ((machine 0x210 0 0).setV 3 0x2B) 0x332A).pc = 0x212 ∧ (after (machine 4092 0 0) 0x3000).pc = 4096 := by decide

/-- C12, C13. -/
theorem test_sneByte :
    (after ((machine 0x210 0 0).setV 3 0x2A) 0x432A).pc = 0x212 ∧ (after (machine 0x210 0 0) 0x432A).pc = 0x214 := by decide

/-- C14, C15, and a pair that differs. -/
theorem test_seReg :
    (after (regs 1 7 2 7) 0x5120).pc = 0x204 ∧ (after (regs 1 7 2 8) 0x5110).pc = 0x204 ∧
    (after (regs 1 7 2 8) 0x5120).pc = 0x202 := by decide

/-- C16, C17. -/
theorem test_sneReg :
    (after (regs 1 7 2 8) 0x9120).pc = 0x204 ∧ (after (regs 1 7 2 8) 0x9110).pc = 0x202 := by decide

/-- C18, C19, C20: always V0, and the sum is not reduced to 12 bits. -/
theorem test_jpV0 :
    (after (regs 0 0x04 2 0) 0xB300).pc = 0x304 ∧ (after (regs 0 0xFF 2 0x55) 0xB2FF).pc = 0x3FE ∧
    (after (regs 0 0xFF 2 0) 0xBFFF).pc = 0x10FE := by decide

/-! ### Loads and ALU (95_test_vectors 2.3) -/

/-- A1. -/
theorem test_ldByte : (after State.reset 0x6AF6).getV 10 = 0xF6 := by decide

/-- A2, A3: no flag. -/
theorem test_addByte :
    (after (regs 0 0xFE 15 0) 0x7003).getV 0 = 0x01 ∧ (after (regs 0 0xFE 15 0) 0x7003).getV 15 = 0 ∧
    (after State.reset 0x70FF).getV 0 = 0xFF := by decide

/-- A4. -/
theorem test_ldReg : (after (regs 1 0 2 0x33) 0x8120).getV 1 = 0x33 := by decide

/-- A5: VF keeps its value. -/
theorem test_orReg :
    (after ((regs 1 0x0F 2 0xF0).setV 15 1) 0x8121).getV 1 = 0xFF ∧
    (after ((regs 1 0x0F 2 0xF0).setV 15 1) 0x8121).getV 15 = 1 := by decide

/-- A6. -/
theorem test_andReg : (after (regs 1 0x3C 2 0x0F) 0x8122).getV 1 = 0x0C := by decide

/-- A7, A8. -/
theorem test_xorReg :
    (after (regs 1 0xFF 2 0x0F) 0x8123).getV 1 = 0xF0 ∧ (after (regs 1 0x5A 2 0) 0x8113).getV 1 = 0 := by decide

/-- A9, A11, A12. -/
theorem test_addReg :
    (after (regs 1 0xC8 2 0x64) 0x8124).getV 1 = 0x2C ∧ (after (regs 1 0xC8 2 0x64) 0x8124).getV 15 = 1 ∧
    (after (regs 1 0x80 2 0x7F) 0x8124).getV 1 = 0xFF ∧ (after (regs 1 0x80 2 0x7F) 0x8124).getV 15 = 0 ∧
    (after (regs 1 0x90 2 0) 0x8114).getV 1 = 0x20 ∧ (after (regs 1 0x90 2 0) 0x8114).getV 15 = 1 := by decide

/-- A13, A14: VF as destination and as source. -/
theorem test_addReg_on_VF :
    (after (regs 15 0x10 1 0xF8) 0x8F14).getV 15 = 0x08 ∧ (after (regs 1 0xFF 15 1) 0x81F4).getV 1 = 0 ∧
    (after (regs 1 0xFF 15 1) 0x81F4).getV 15 = 1 := by decide

/-- A15, A16. -/
theorem test_subReg :
    (after (regs 1 0x05 2 0x0A) 0x8125).getV 1 = 0xFB ∧ (after (regs 1 0x05 2 0x0A) 0x8125).getV 15 = 0 ∧
    (after (regs 1 0x0A 2 0x0A) 0x8125).getV 1 = 0 ∧ (after (regs 1 0x0A 2 0x0A) 0x8125).getV 15 = 1 := by decide

/-- A18, A19, A20. -/
theorem test_subReg_on_VF :
    (after (regs 15 0x05 1 0x0A) 0x8F15).getV 15 = 0xFB ∧ (after (regs 15 0x07 1 0) 0x8FF5).getV 15 = 0 ∧
    (after (regs 1 0x05 15 0x05) 0x81F5).getV 1 = 0 ∧ (after (regs 1 0x05 15 0x05) 0x81F5).getV 15 = 1 := by decide

/-- A21, which pins down Vx as the operand (S8), and A23. -/
theorem test_shr :
    (after (regs 1 0x05 2 0x80) 0x8126).getV 1 = 0x02 ∧ (after (regs 1 0x05 2 0x80) 0x8126).getV 15 = 1 ∧
    (after (regs 1 0x05 2 0x80) 0x8126).getV 2 = 0x80 ∧ (after (regs 15 0xFF 0 0) 0x8F06).getV 15 = 0 := by decide

/-- A24, A25, A26. -/
theorem test_subnReg :
    (after (regs 1 0x05 2 0x0A) 0x8127).getV 1 = 0x05 ∧ (after (regs 1 0x05 2 0x0A) 0x8127).getV 15 = 1 ∧
    (after (regs 1 0x0A 2 0x05) 0x8127).getV 1 = 0xFB ∧ (after (regs 1 0x0A 2 0x05) 0x8127).getV 15 = 0 ∧
    (after (regs 15 0x05 1 0x0A) 0x8F17).getV 15 = 0x05 := by decide

/-- S8, A27, A30, A31. -/
theorem test_shl :
    (after (regs 1 0x05 2 0x80) 0x812E).getV 1 = 0x0A ∧ (after (regs 1 0x05 2 0x80) 0x812E).getV 15 = 0 ∧
    (after (regs 1 0x81 2 0) 0x812E).getV 1 = 0x02 ∧ (after (regs 1 0x81 2 0) 0x812E).getV 15 = 1 ∧
    (after (regs 15 0x80 0 0) 0x8F0E).getV 15 = 0x02 ∧ (after (regs 15 0x7F 0 0) 0x8F0E).getV 15 = 0 := by decide

/-- A32, A34: with the byte given. -/
theorem test_rnd :
    (rndWith 0xA7 3 0x0F State.reset).getV 3 = 0x07 ∧ (rndWith 0xA7 3 0xFF State.reset).getV 3 = 0xA7 := by decide

/-- A33: a mask of 0 leaves 0 whatever the byte is, and each draw advances the count. -/
theorem test_rnd_step :
    (after State.reset 0xC300).getV 3 = 0 ∧ (after State.reset 0xC300).rndDraws = 1 :=
  ⟨BitVec.and_zero, rfl⟩

/-! ### Index register and memory (95_test_vectors 2.4) -/

/-- M1, M2. -/
theorem test_ldI : (after State.reset 0xA300).i = 0x300 ∧ (after State.reset 0xAFFF).i = 0x0FFF := by decide

/-- M4, M5: no flag, modulo 65536. -/
theorem test_addIVx :
    (after ((machine 0x200 0x0FFF 0).setV 0 1) 0xF01E).i = 0x1000 ∧
    (after ((machine 0x200 0x0FFF 0).setV 0 1) 0xF01E).getV 15 = 0 ∧
    (after ((machine 0x200 0xFFFF 0).setV 0 1) 0xF01E).i = 0 := by decide

/-- M6, M7: the low digit is not selected. -/
theorem test_ldFVx :
    (after (regs 0 0x0A 1 0) 0xF029).i = 0x0032 ∧ (after (regs 0 0xFF 1 0) 0xF029).i = 0x04FB := by decide

/-- M8, M10: three bytes up to the last address. -/
theorem test_ldBVx :
    (after ((machine 0x200 0x300 0).setV 4 0xF6) 0xF433).mem =
      [(0x200, 0xF4), (0x201, 0x33), (0x300, 2), (0x301, 4), (0x302, 6)] ∧
    (after ((machine 0x200 4092 0).setV 0 0xFF) 0xF033).mem =
      [(0x200, 0xF0), (0x201, 0x33), (4092, 2), (4093, 5), (4094, 5)] := by decide

/-- M11: nothing is stored. -/
theorem test_ldBVx_past_memory :
    (after ((machine 0x200 4093 0).setV 0 0xFF) 0xF033).run = .faulted .memoryOutOfBounds 0x200 (some 0xF033) ∧
    (after ((machine 0x200 4093 0).setV 0 0xFF) 0xF033).mem = [(0x200, 0xF0), (0x201, 0x33)] := by decide

/-- M12, M13. -/
theorem test_ldMemVx :
    (after (((machine 0x200 0x400 0).setV 0 0x11).setV 2 0x33) 0xF255).mem =
      [(0x200, 0xF2), (0x201, 0x55), (0x400, 0x11), (0x402, 0x33)] ∧
    (after (machine 0x200 0x400 0) 0xF255).i = 0x403 ∧
    (after ((machine 0x200 4094 0).setV 0 0x77) 0xF055).mem.read 4094 = 0x77 ∧
    (after ((machine 0x200 4094 0).setV 0 0x77) 0xF055).i = 4095 := by decide

/-- M14, and M18: the next Step fetches what was stored. -/
theorem test_ldMemVx_corners :
    (after (machine 0x200 4094 0) 0xF155).run = .faulted .memoryOutOfBounds 0x200 (some 0xF155) ∧
    (after (machine 0x200 4094 0) 0xF155).i = 4094 ∧
    (after ((machine 0x200 0x202 0).setV 1 0xFD) 0xF155).fetch = some 0x00FD := by decide

/-- M15: V3 keeps its value. -/
theorem test_ldVxMem :
    (after (((machine 0x200 0x300 0).setV 3 0x99).setMem [(0x300, 2), (0x301, 4), (0x302, 6)]) 0xF265).v.toList.take 4 =
      [2, 4, 6, 0x99] ∧
    (after (machine 0x200 0x300 0) 0xF265).i = 0x303 := by decide

/-- M16, which reads the font, and M17. -/
theorem test_ldVxMem_corners :
    (after State.reset 0xFF65).v.toList =
      [0xF0, 0x90, 0x90, 0x90, 0xF0, 0x20, 0x60, 0x20, 0x20, 0x70, 0xF0, 0x10, 0xF0, 0x80, 0xF0, 0xF0] ∧
    (after State.reset 0xFF65).i = 0x10 ∧
    (after (machine 0x200 0x1000 0) 0xF065).run = .faulted .memoryOutOfBounds 0x200 (some 0xF065) := by decide

/-- Writing back what an unlisted address reads as removes the entry; font bytes count as unlisted. -/
theorem test_memory_is_canonical :
    (Memory.write [] 0x300 7).write 0x300 0 = [] ∧ Memory.write [] 0 0xF0 = [] ∧ Memory.write [] 0 0 = [(0, 0)] ∧
    (Memory.write [] 0x300 7).write 0x2FF 8 = [(0x2FF, 8), (0x300, 7)] := by decide

/-! ### Display (95_test_vectors 2.5) -/

/-- D13. -/
theorem test_cls :
    (after (canvas 0 0 [] [0, 2047]) 0x00E0).fb = lit [] ∧
    (after ((canvas 0 0 [] [0, 2047]).setV 15 5) 0x00E0).getV 15 = 5 := by decide

/-- D1, D2 (S3), D8: collision, and the start position wraps. -/
theorem test_drw :
    (after (canvas 2 1 [0xF0] []) 0xD011).fb = lit [66, 67, 68, 69] ∧
    (after (canvas 2 1 [0xF0] []) 0xD011).getV 15 = 0 ∧
    (after (canvas 2 1 [0xF0] [66, 67, 68, 69]) 0xD011).fb = lit [] ∧
    (after (canvas 2 1 [0xF0] [66, 67, 68, 69]) 0xD011).getV 15 = 1 ∧
    (after (canvas 0x40 0x21 [0x80] []) 0xD011).fb = lit [64] := by decide

/-- D9, D10, D11, D12. -/
theorem test_drw_corners :
    (after ((machine 0x200 0x0FFF 0).setV 15 1) 0xD010).getV 15 = 0 ∧
    (after ((canvas 3 0 [0x80] []).setV 15 5) 0xDF01).fb = lit [64 * 3 + 5] ∧
    (after ((machine 0x200 4094 0).setMem [(4094, 0x80)]) 0xD011).fb = lit [0] ∧
    (after ((machine 0x200 4094 0).setV 15 1) 0xD012).run = .faulted .memoryOutOfBounds 0x200 (some 0xD012) ∧
    (after ((machine 0x200 4094 0).setV 15 1) 0xD012).getV 15 = 1 := by decide

/-- D5, D6, D7, D15 with `NextRow`. -/
theorem test_drw_next_row :
    (after (canvas 62 5 [0xF0] []) 0xD011).fb = lit [382, 383, 384, 385] ∧
    (after (canvas 60 31 [0xFF] []) 0xD011).fb = lit [2044, 2045, 2046, 2047] ∧
    (after (canvas 0 30 [0x80, 0x80, 0x80] []) 0xD013).fb = lit [1920, 1984] ∧
    (after (canvas 62 5 [0xF0] [384]) 0xD011).fb = lit [382, 383, 385] ∧
    (after (canvas 62 5 [0xF0] [384]) 0xD011).getV 15 = 1 := by decide

/-- D5, D6, D15 with `SameRow`. -/
theorem test_drw_same_row :
    (blit .sameRow 62 5 [0xF0] (lit [])).1 = lit [382, 383, 320, 321] ∧
    (blit .sameRow 60 31 [0xFF] (lit [])).1 = lit [2044, 2045, 2046, 2047, 1984, 1985, 1986, 1987] ∧
    blit .sameRow 62 5 [0xF0] (lit [384]) = (lit [382, 383, 320, 321, 384], false) := by decide

/-- D14: glyph 7 of the font. -/
theorem test_drw_font_glyph :
    (after (State.reset.setI 0x23) 0xD125).fb = lit [0, 1, 2, 3, 67, 130, 193, 257] := by decide

/-! ### Keys and timers (95_test_vectors 2.6) -/

/-- K1, K2, K3. -/
theorem test_skp :
    (after ((regs 4 0x07 0 0).keySet 7) 0xE49E).pc = 0x204 ∧ (after (regs 4 0x07 0 0) 0xE49E).pc = 0x202 ∧
    (after ((regs 4 0x17 0 0).keySet 7) 0xE49E).pc = 0x204 := by decide

/-- K4, K5. -/
theorem test_sknp :
    (after (regs 4 0x07 0 0) 0xE4A1).pc = 0x204 ∧ (after ((regs 4 0x07 0 0).keySet 7) 0xE4A1).pc = 0x202 := by decide

/-- K6. -/
theorem test_ldVxDT : (after (State.reset.setDT 0x2C) 0xF307).getV 3 = 0x2C ∧
    (after (State.reset.setDT 0x2C) 0xF307).dt = 0x2C := by decide

/-- K7: no key pressed, the whole state as before. -/
theorem test_ldVxK_stalls : after (regs 5 0x99 0 0) 0xF50A = (regs 5 0x99 0 0).withFetchWord 16 0xF50A := by decide

/-- K8, K9. -/
theorem test_ldVxK :
    (after (State.reset.keySet 0xB) 0xF50A).getV 5 = 0x0B ∧ (after (State.reset.keySet 0xB) 0xF50A).pc = 0x202 ∧
    (after ((State.reset.keySet 9).keySet 3) 0xF50A).getV 5 = 0x03 := by decide

/-- K10, with `TIMER_PER_STEP` true as well. -/
theorem test_ldDTVx :
    (after (regs 0 0x3C 1 0) 0xF015).dt = 0x3C ∧
    (stateOf State.reset (finishStep true (exec (.ldDTVx 0) (regs 0 0x3C 1 0)))).dt = 0x3B := by decide

/-- K11. -/
theorem test_ldSTVx :
    (after (regs 1 5 0 0) 0xF118).st = 5 ∧ (after (regs 1 5 0 0) 0xF118).soundActive = true := by decide

/-! ### Events (95_test_vectors 2.6, 60_exceptions, 70_reset_and_hazards) -/

/-- K12, K13, K14, K16: never below zero; `should_play` is sampled before the decrement. -/
theorem test_tick :
    (afterEvent (State.reset.setDT 2) .tick).dt = 1 ∧ (afterEvent (State.reset.setST 1) .tick).st = 0 ∧
    (State.reset.setST 1).shouldPlay = true ∧ afterEvent State.reset .tick = State.reset ∧
    (afterEvent ((State.reset.setDT 9).setRun .halted) .tick).dt = 9 := by decide

/-- K15: a press and release between two Steps leaves nothing. -/
theorem test_key_events :
    (afterEvent State.reset (.keySet 5)).keyDown 5 = true ∧
    afterEvent (afterEvent State.reset (.keySet 5)) (.keyClear 5) = State.reset := by decide

/-- Reset leaves FAULTED; the count of random draws, the model's own, goes on (log 8). -/
theorem test_reset :
    afterEvent (after State.reset 0x00EE) .reset = State.reset ∧
    (afterEvent (State.reset.setDraws 3) .reset).rndDraws = 3 := by decide

/-- LoadROM places the bytes at 0x200 and refuses a machine that has run (70_reset_and_hazards R201, R212). -/
theorem test_loadRom :
    afterEvent State.reset (.loadRom [0x12, 0x00]) = State.reset.setMem [(0x200, 0x12)] ∧
    (match applyEvent (.loadRom [0x12]) (after State.reset 0x0123) with
      | .refused r => some r
      | .next _ => none
      | .fault _ => none) = some Refusal.loadRomNotAfterReset := by decide

/-- S7: the largest ROM has 3583 bytes. -/
theorem test_romMax : romMax = 4095 - 512 := by decide

/-- A short run with a key event: the first Steps of program P4. -/
theorem test_run_with_events :
    (stateOf State.reset (runEvents [.loadRom [0xF0, 0x0A], .step, .tick, .keySet 7, .step] State.reset)).getV 0 = 7 := by
  decide

/-- What the collaborators read (60_exceptions R170, R187, R188, R191). -/
theorem test_observations :
    FaultKind.memoryOutOfBounds.code = 4 ∧ (State.reset.setFB (lit [66])).pixelAt 2 1 = true ∧
    (State.reset.withFetchWord 16 0x00E0).trace.ins = some .cls ∧ RunState.halted.exitCode = some 0 ∧
    (after State.reset 0x00EE).run.exitCode = some 1 := by decide

/-! ### Assembly (30_encoding R84, R85) -/

theorem test_assembler :
    assemble .SYS [.num 0x0E0] = none ∧ assemble .DRW [.reg 0, .reg 1, .num 16] = none ∧
    assemble .JP [.reg 1, .num 0x300] = none ∧ assemble .SHR [.reg 1] = some (.shr 1 0) ∧
    assemble .LD [.memI, .reg 2] = some (.ldMemVx 2) := by decide

theorem test_readLine :
    readLine "LD  V0, 0xF6".toList = some (.ins (.ldByte 0 0xF6)) ∧
    readLine "LD V2, [I]".toList = some (.ins (.ldVxMem 2)) ∧ readLine "RET".toList = some (.ins .ret) ∧
    readLine "DRW V0, VB, 2".toList = some (.ins (.drw 0 11 2)) ∧ readLine "DB 0xC0".toList = some (.db 0xC0) ∧
    readLine "LD V0, 256".toList = none := by decide

/-- Either case of a digit and of V, a number in each base, and what is none (30_encoding R84). -/
theorem test_readNumber_and_readReg :
    readNumber "0xfF".toList = some 255 ∧ readNumber "246".toList = some 246 ∧ readNumber "2A".toList = none ∧
    readNumber "0x".toList = none ∧ readNumber [] = none ∧ readReg "Vb".toList = some 11 ∧
    readReg "vB".toList = some 11 ∧ readReg "VG".toList = none := by decide

/-- The ROM bytes of the end of program P3. -/
theorem test_romOf :
    romOf [.ins (.drw 0 1 2), .ins .exit, .dw 0x0000, .db 0xC0, .db 0xC0] =
      [0xD0, 0x12, 0x00, 0xFD, 0x00, 0x00, 0xC0, 0xC0] := by decide

/-! ### Witnesses: values that meet all hypotheses of a statement, clause by clause -/

/-- The fields' upper ends, and the last PC that fetches, with an illegal word there. -/
theorem witness_IllegalWordsAreTheTableAndFault :
    (0xF < 16 ∧ 0xF < 16 ∧ 0xFF < 256) ∧
    ((machine 4093 0 0).withFetchWord 16 0xFFFF).run = .running ∧
    ((machine 4093 0 0).withFetchWord 16 0xFFFF).fetch = some 0xFFFF ∧ illegalByTable 0xFFFF = true := by decide

theorem witness_DecodeOfEncode : (Instr.sys 0xFFF).wf = true ∧ (Instr.drw 15 15 15).wf = true := by decide

theorem witness_EncodeOfDecode : decode 0x00FD = .ok .exit ∧ decode 0xFF65 = .ok (.ldVxMem 15) := by decide

theorem witness_BytesOfInstructionDecode : (Instr.ldByte 15 0xFF).wf = true := by decide

theorem witness_AssembleOfDisassemble : (Instr.shr 1 0).wf = true ∧ (Instr.shr 1 2).wf = true := by decide

theorem witness_HasExitSwitch : (0x00FC : Word) ≠ 0x00FD := by decide

/-- PC = 4093 and 4094, the two sides of the bound. -/
theorem witness_FetchIsBigEndianAndBounded :
    (machine 4093 0 0).pc.toNat ≤ 4093 ∧
    ((machine 4094 0 0).run = .running ∧ (machine 4094 0 0).pc.toNat + 1 ≥ params.memSize) := by decide

theorem witness_StepRunsTheDecodedInstruction :
    let s := (machine 4093 0 0).withFetchWord 16 0xD5A7
    s.run = .running ∧ s.pc.toNat + 1 < params.memSize ∧ s.mem.read s.pc.toNat = 0xD5 ∧
    s.mem.read (s.pc.toNat + 1) = 0xA7 ∧ decode (word (256 * (0xD5 : Byte).toNat + (0xA7 : Byte).toNat)) = .ok (.drw 5 10 7) := by
  decide

/-- A halted and a faulted machine; each event answers. -/
theorem witness_StoppedMachineIsFrozen :
    (State.reset.setRun .halted).run ≠ .running ∧
    (State.reset.setRun (.faulted .unknownOpcode 0x200 (some 0x5121))).run ≠ .running ∧
    (∃ t, applyEvent .reset (State.reset.setRun .halted) = .next t) ∧
    (∃ t, applyEvent (.keySet 15) (State.reset.setRun .halted) = .next t) ∧
    ∃ t, applyEvent (.keyClear 0) (State.reset.setRun .halted) = .next t :=
  ⟨by decide, by decide, ⟨_, rfl⟩, ⟨_, rfl⟩, ⟨_, rfl⟩⟩

/-- A Step that faults with a word, and one without. -/
theorem witness_FaultingStepIsPrecise :
    (machine 0x200 4094 0).run = .running ∧
    (∃ t, step ((machine 0x200 4094 0).withFetchWord 16 0xF155) = .next t ∧
      t.run = .faulted .memoryOutOfBounds 0x200 (some 0xF155)) ∧
    ∃ t, step (machine 4094 0 0) = .next t ∧ t.run = .faulted .memoryOutOfBounds 4094 none :=
  ⟨by decide, ⟨_, rfl, by decide⟩, ⟨_, rfl, by decide⟩⟩

/-- Each cause holds somewhere, the fetch fault and an access fault among them. -/
theorem witness_FaultsExactlyForTheirCauses :
    (∃ t, step (machine 4094 0 0) = .next t) ∧
    FaultKind.memoryOutOfBounds.cause (machine 4094 0 0) none ∧
    FaultKind.memoryOutOfBounds.cause (machine 0x200 4094 0) (some 0xF155) ∧
    FaultKind.unknownOpcode.cause State.reset (some 0x5121) ∧
    FaultKind.stackOverflow.cause (machine 0x200 0 16) (some 0x2400) ∧
    FaultKind.stackUnderflow.cause State.reset (some 0x00EE) :=
  ⟨⟨_, rfl⟩, show (_ : Nat) ≥ _ by decide, ⟨.ldMemVx 1, by decide, by decide, by decide⟩, ⟨.illegal5 0x5121, by decide⟩,
    ⟨0x400, by decide, by decide⟩, by decide, by decide⟩

theorem witness_OnlyExitHalts :
    ∃ t, step (State.reset.withFetchWord 16 0x00FD) = .next t ∧ t.run = .halted ∧
      (State.reset.withFetchWord 16 0x00FD).run = .running :=
  ⟨_, rfl, by decide, by decide⟩

/-- SP = 16, the largest legal value, at a RET. -/
theorem witness_StepAlwaysAnswersNext : (machine 0x200 0 16).sp.toNat ≤ 16 := by decide

theorem witness_TimerPerStepSwitch :
    (State.reset.setDT 1).run = .running ∧ (State.reset.setRun .halted).run ≠ .running := by decide

/-- The invariant at its bounds: SP = 16, PC = 0x10FE, a return address of 4095, and a fault recorded. -/
def edge : State :=
  ((machine 0x10FE 0xFFFF 16).setStack 15 4095).setRun (.faulted .memoryOutOfBounds 0x10FE none)

theorem edge_inv : edge.Inv where
  memWf := by decide
  spLegal := by decide
  returnsLegal := by decide
  pcLegal := by decide
  runTrue := ⟨rfl, rfl, show (_ : Nat) ≥ _ by decide⟩

/-- A halted machine that meets the invariant: it stands past 00FD. -/
theorem halted_inv : ((machine 0x202 0 0).setMem [(0x201, 0xFD)]).setRun .halted |>.Inv where
  memWf := by decide
  spLegal := by decide
  returnsLegal := by decide
  pcLegal := by decide
  runTrue := show _ = _ by decide

/-- A running machine that meets the invariant, with the stack full and I past memory. -/
theorem running_inv : (machine 0x200 0xFFFF 16).Inv where
  memWf := by decide
  spLegal := by decide
  returnsLegal := by decide
  pcLegal := by decide
  runTrue := trivial

theorem witness_StepKeepsInvariant :
    (machine 0x200 0xFFFF 16).run = .running ∧ (machine 0x200 0xFFFF 16).Inv ∧
    (∃ t, step (machine 0x200 0xFFFF 16) = .next t) ∧ edge.Inv ∧ ∃ t, step edge = .next t :=
  ⟨rfl, running_inv, ⟨_, rfl⟩, edge_inv, _, rfl⟩

theorem witness_RunsNeverStopAndKeepInvariant :
    (edge.Inv ∧ ∀ bytes, Event.loadRom bytes ∉ [Event.step, .tick, .keySet 3, .reset, .step]) ∧
    ∃ s t, s.Inv ∧ applyEvent (.loadRom [0x12]) s = .next t :=
  ⟨⟨edge_inv, by simp⟩, State.reset.keySet 4, _, ⟨by decide, by decide, by decide, by decide, trivial⟩, rfl⟩

theorem witness_ResetState : 79 < 80 ∧ 80 ≤ 80 := by decide

/-- The largest ROM and one byte more; a machine just reset, with a key held, and one that has run. -/
theorem witness_LoadRomImage :
    ((State.reset.keySet 4).justReset = true ∧ (List.replicate 3583 (0 : Byte)).length ≤ 3583) ∧
    3583 < (List.replicate 3584 (0 : Byte)).length ∧
    (([] : List Byte).length ≤ 3583 ∧ (State.reset.setPC 0x202).justReset = false) := by
  refine ⟨⟨by decide, Nat.le_of_eq List.length_replicate⟩, ?_, by decide, by decide⟩
  rw [List.length_replicate]
  decide

theorem witness_TickDecrementsBothTimers :
    (State.reset.setST 1).run = .running ∧ (State.reset.setRun .halted).run ≠ .running := by decide

theorem witness_KeyEventsWriteOneLatchBit :
    (State.reset.keySet 15).keyDown 15 = true ∧ State.reset.keyDown 0 = false := by decide

/-- The two sides of the bound for two bytes. -/
theorem witness_MemoryPrimitives :
    State.reset.mem.wf ∧ [(1 : Byte), 2] ≠ [] ∧ 4094 + [(1 : Byte), 2].length - 1 ≥ params.memSize ∧
    4093 + [(1 : Byte), 2].length - 1 < params.memSize := by decide

/-- Two orders of writing. -/
theorem witness_CanonicalMemoriesThatReadAlikeAreEqual :
    let m := (Memory.write [] 0x300 7).write 0 1
    let m' := (Memory.write [] 0 1).write 0x300 7
    m.wf ∧ m'.wf ∧ ∀ a, a < params.memSize → m.read a = m'.read a :=
  ⟨by decide, by decide, fun _ _ => rfl⟩

/-- The last two bytes of memory. -/
theorem witness_StoredBytesAreFetched :
    (machine 0x200 4093 0).mem.wf ∧ (0 : Reg).val + 1 = (1 : Reg).val ∧ (1 : Reg) ≤ 1 ∧
    (machine 0x200 4093 0).i.toNat + (1 : Reg).val < params.memSize := by decide

theorem witness_SysDoesNothing : (0x0E1 : Addr12) ≠ 0x0E0 ∧ (0x0E1 : Addr12) ≠ 0x0EE ∧ (0x0E1 : Addr12) ≠ 0x0FD := by
  decide

/-- SP = 1, SP = 16 and SP = 0. -/
theorem witness_RetPopsTheReturnAddress :
    (machine 0 0 1).sp.toNat = (0 : Fin 16).val + 1 ∧ (machine 0 0 16).sp.toNat = (15 : Fin 16).val + 1 ∧
    (((machine 0 0 1).setStack 0 4094).stack[0]).toNat ≥ params.memSize - 1 ∧ State.reset.sp = 0#16 := by decide

theorem witness_JumpsSetPC :
    let s := (machine 0x204 0 0).withFetchWord 16 0x1204
    s.run = .running ∧ s.pc.toNat = (0x204 : Addr12).toNat ∧ s.fetch = some (word (0x1000 + (0x204 : Addr12).toNat)) ∧
    (0xFFE : Addr12).toNat ≥ 4094 ∧ ((State.reset.setV 0 1).getV 0).toNat + (0xFFD : Addr12).toNat ≥ 4094 := by
  decide

/-- SP = 0, 15 and 16. -/
theorem witness_CallPushesTheReturnAddress :
    (machine 0 0 0).sp.toNat = (0 : Fin 16).val ∧ (machine 0 0 15).sp.toNat = (15 : Fin 16).val ∧
    (machine 0 0 16).sp.toNat ≥ 16 ∧ (0xFFE : Addr12).toNat ≥ 4094 := by decide

/-- A subroutine that has itself called, and so has overwritten entry 15; and the last level, which can only jump. -/
theorem witness_RetUndoesCall :
    ((machine 0x202 0 14).sp.toNat = (14 : Fin 16).val ∧
      let t := after (machine 0x200 0 14) 0x2300
      let u := (t.setStack 15 0x345).setPC 0x345
      u.sp = t.sp ∧ u.stack[14] = t.stack[14] ∧ u.stack ≠ t.stack) ∧
    ((machine 0x202 0 15).sp.toNat = (15 : Fin 16).val ∧
      let t := after (machine 0x200 0 15) 0x2300
      (t.setPC 0x345).sp = t.sp ∧ (t.setPC 0x345).stack[15] = t.stack[15]) := by decide

/-- Both sides of each condition. -/
theorem witness_RegisterSkips :
    (State.reset.getV 0).toNat = (0 : Byte).toNat ∧ (State.reset.getV 0).toNat ≠ (1 : Byte).toNat ∧
    ((regs 1 7 2 8).getV 1).toNat ≠ ((regs 1 7 2 8).getV 2).toNat ∧ (State.reset.getV 1).toNat = (State.reset.getV 2).toNat := by
  decide

theorem witness_LogicBitByBit : 7 < 8 := by decide

/-- x = 15 is not shut out. -/
theorem witness_SubtractionsWriteNotBorrow : (15 : Reg) ≠ 0 ∧ (0 : Reg) ≠ 15 := by decide

theorem witness_writesFlagThenV : (14 : Reg) ≠ 15 := by decide

theorem witness_RandomByteIsMasked : (0x0F : Byte).getLsbD 4 = false := by decide

/-- I = 4092 and 4093. -/
theorem witness_BcdStoresTheDecimalDigits :
    ((machine 0 4092 0).mem.wf ∧ (machine 0 4092 0).i.toNat + 2 < params.memSize) ∧
    (machine 0 4093 0).i.toNat + 2 ≥ params.memSize := by decide

/-- I + x = 4094 and 4095. -/
theorem witness_RegisterDump :
    ((machine 0 4079 0).mem.wf ∧ (machine 0 4079 0).i.toNat + (15 : Reg).val < params.memSize) ∧
    (machine 0 4095 0).i.toNat + (0 : Reg).val ≥ params.memSize ∧ (15 : Reg) ≤ 15 := by decide

theorem witness_RegisterLoad :
    (machine 0 4094 0).i.toNat + (0 : Reg).val < params.memSize ∧
    (machine 0 4094 0).i.toNat + (1 : Reg).val ≥ params.memSize ∧ (0 : Reg) ≤ 0 := by decide

/-- In between the registers are overwritten and I is set back. -/
theorem witness_LoadUndoesDump :
    (machine 0 0x300 0).mem.wf ∧ (machine 0 0x300 0).i.toNat + (15 : Reg).val < params.memSize ∧
    ∃ t, exec (.ldMemVx 15) (machine 0 0x300 0) = .next t ∧ ((t.setV 3 9).setI 0x300).mem = t.mem ∧
      ((t.setV 3 9).setI 0x300).i = (machine 0 0x300 0).i :=
  ⟨by decide, by decide, _, rfl, rfl, rfl⟩

theorem witness_ClsClearsTheDisplay : ∀ p, p < 2048 → State.reset.fb.pixel p = false :=
  fun p _ => by
    simp only [FrameBuffer.pixel, State.reset]
    split <;> simp

/-- Column 64 of row 5, row 32, and a start at the last pixel. -/
theorem witness_TargetsOfSpritePixels :
    63 < 64 ∧ 32 ≤ 32 ∧ target .nextRow 64 5 = some 384 ∧ target .sameRow 64 5 = some 320 ∧ 31 < 32 := by decide

/-- n = 0 anywhere, n = 15 up to the last byte, and one byte past it; a sprite that covers a pixel that is on. -/
theorem witness_DrwXorsTheSpriteMask :
    spriteInBounds 0 (machine 0 0xFFFF 0) ∧ spriteInBounds 15 (machine 0 4080 0) ∧
    ¬ spriteInBounds 1 (machine 0 4095 0) ∧
    (∃ p, spriteCovers .nextRow 0 1 1 (canvas 62 5 [0xF0] [384]) p ∧ (canvas 62 5 [0xF0] [384]).fb.pixel p = true) ∧
    ¬ ∃ p, spriteCovers .nextRow 0 1 0 (machine 0 0xFFFF 0) p ∧ (machine 0 0xFFFF 0).fb.pixel p = true := by
  refine ⟨.inl rfl, .inr (by decide), ?_, ⟨384, ⟨0, by decide, 2, by decide, by decide, by decide⟩, by decide⟩, ?_⟩
  · rintro (h | h)
    · exact absurd h (by decide)
    · exact absurd h (by decide)
  · rintro ⟨p, ⟨r, hr, -⟩, -⟩
    exact absurd hr (Nat.not_lt_zero r)

theorem witness_DrawingTwiceRestoresTheScreen :
    (0 : Reg) ≠ 15 ∧ (1 : Reg) ≠ 15 ∧ spriteInBounds 1 (canvas 62 5 [0xF0] []) :=
  ⟨by decide, by decide, .inr (by decide)⟩

/-- V[4] = 0x17 names key 7; both states of the key. -/
theorem witness_KeySkips :
    ((regs 4 0x17 0 0).getV 4).toNat % 16 = (7 : Key).val ∧ (regs 4 0x17 0 0).keyDown 7 = false ∧
    ((regs 4 0x17 0 0).keySet 7).keyDown 7 = true := by decide

theorem witness_TimerMoves : (State.reset.setDT 0xFF).run = .running := by decide

/-- No key; the lowest key; the highest alone. -/
theorem witness_WaitForKeyStallsOrReportsTheLowest :
    (∀ k, State.reset.keyDown k = false) ∧
    ((State.reset.withFetchWord 16 0xFF0A).run = .running ∧ (∀ k, (State.reset.withFetchWord 16 0xFF0A).keyDown k = false) ∧
      (State.reset.withFetchWord 16 0xFF0A).fetch = some (word (0xF00A + 256 * (15 : Reg).val))) ∧
    ((State.reset.keySet 0).keyDown 0 = true ∧ ∀ j, j < (0 : Key) → (State.reset.keySet 0).keyDown j = false) ∧
    ((State.reset.keySet 15).keyDown 15 = true ∧ ∀ j, j < (15 : Key) → (State.reset.keySet 15).keyDown j = false) := by
  decide

/-- A flag instruction, and a load of VF itself. -/
theorem witness_OnlyFlagInstructionsWriteVF :
    (∃ t, exec (.addReg 1 2) (regs 1 0xFF 2 1) = .next t ∧ t.getV 15 ≠ (regs 1 0xFF 2 1).getV 15) ∧
    ∃ t, exec (.ldByte 15 7) State.reset = .next t ∧ t.getV 15 ≠ State.reset.getV 15 :=
  ⟨⟨_, rfl, by decide⟩, ⟨_, rfl, by decide⟩⟩

/-- A Step that changes each part, and a skip. -/
theorem witness_EachPartHasItsWriters :
    (∃ t, step ((canvas 0 0 [0x80] []).withFetchWord 16 0xD011) = .next t ∧ t.fb ≠ (canvas 0 0 [0x80] []).fb) ∧
    (∃ t, step (State.reset.withFetchWord 16 0xF033) = .next t ∧ t.mem ≠ (State.reset.withFetchWord 16 0xF033).mem) ∧
    (∃ t, step (State.reset.withFetchWord 16 0xA300) = .next t ∧ t.i ≠ State.reset.i) ∧
    (∃ t, step (State.reset.withFetchWord 16 0x2300) = .next t ∧ t.sp ≠ State.reset.sp ∧ t.stack ≠ State.reset.stack) ∧
    (∃ t, step ((regs 0 9 1 0).withFetchWord 16 0xF015) = .next t ∧ t.dt ≠ (regs 0 9 1 0).dt) ∧
    (∃ t, step ((regs 0 9 1 0).withFetchWord 16 0xF018) = .next t ∧ t.st ≠ (regs 0 9 1 0).st) ∧
    (∃ t, step (State.reset.withFetchWord 16 0x6F01) = .next t ∧ t.getV 15 ≠ State.reset.getV 15) ∧
    (∃ t, step (State.reset.withFetchWord 16 0x5120) = .next t ∧ t.pc ≠ State.reset.pc + 2#16 ∧
      t.pc ≠ State.reset.pc) ∧
    (∃ t, step (State.reset.withFetchWord 16 0x00FD) = .next t ∧ t.run ≠ State.reset.run) ∧
    ∃ t, step (State.reset.withFetchWord 16 0xC000) = .next t ∧ t.rndDraws ≠ State.reset.rndDraws :=
  ⟨⟨_, rfl, by decide⟩, ⟨_, rfl, by decide⟩, ⟨_, rfl, by decide⟩, ⟨_, rfl, by decide, by decide⟩, ⟨_, rfl, by decide⟩,
    ⟨_, rfl, by decide⟩, ⟨_, rfl, by decide⟩, ⟨_, rfl, by decide, by decide⟩, ⟨_, rfl, by decide⟩, ⟨_, rfl, by decide⟩⟩

theorem witness_SoundTimerIsNeverRead : ∃ t, step (State.reset.withFetchWord 16 0xF018) = .next t := ⟨_, rfl⟩

/-- SP = 15: entry 15 is dead, and a CALL is about to overwrite it. -/
theorem witness_DeadStackEntriesAreNeverRead :
    (machine 0x200 0 15).sp.toNat ≤ (15 : Fin 16).val ∧
    ∃ t, step ((machine 0x200 0 15).withFetchWord 16 0x2300) = .next t :=
  ⟨by decide, _, rfl⟩

end Sys2Proof.Tests
end

/-! ## The words of the decoder's instructions (30_encoding R72, R74) -/

namespace Sys2Proof

/-! ### A word from its fields, one lemma per format -/

theorem formatNNN_fieldNNN {op : Word} {p : Nat} (hp : op.toNat / 4096 = p) : formatNNN p (fieldNNN op) = op := by
  apply BitVec.eq_of_toNat_eq
  simp only [formatNNN, fieldNNN, BitVec.toNat_ofNat]
  omega

theorem formatXKK_fields {op : Word} {p : Nat} (hp : op.toNat / 4096 = p) :
    formatXKK p (fieldX op) (fieldKK op) = op := by
  apply BitVec.eq_of_toNat_eq
  simp only [formatXKK, fieldX, fieldKK, BitVec.toNat_ofNat]
  omega

theorem formatXYN_fields {op : Word} {p n : Nat} (hp : op.toNat / 4096 = p) (hn : op.toNat % 16 = n) :
    formatXYN p (fieldX op) (fieldY op) n = op := by
  apply BitVec.eq_of_toNat_eq
  simp only [formatXYN, fieldX, fieldY, BitVec.toNat_ofNat]
  omega

theorem formatX_fieldX {op : Word} {p kk : Nat} (hp : op.toNat / 4096 = p) (hk : op.toNat % 256 = kk) :
    formatX p (fieldX op) kk = op := by
  apply BitVec.eq_of_toNat_eq
  simp only [formatX, fieldX, BitVec.toNat_ofNat]
  omega

/-! ### Every row of the opcode map loses no bit of the words it selects -/

/-- The instruction the row builds from a word it selects has that word. -/
def OpcodeRow.Faithful (r : OpcodeRow) : Prop := ∀ op, r.selects op = true → encode (r.build op) = op

/-! One lemma per mask: a row that builds its instruction from the fields its format has (30_encoding R72). -/

namespace OpcodeRow.Faithful

variable {name : String} {v : Word}

theorem of_fixed {i : Instr} (he : encode i = v) : Faithful ⟨name, v, 0xFFFF, fun _ => i⟩ := fun op h => by
  rw [selects_FFFF, decide_eq_true_eq] at h
  exact he.trans (BitVec.eq_of_toNat_eq h.symm)

theorem of_nnn (make : Addr12 → Instr) (hv : v.toNat % 4096 = 0)
    (he : ∀ a, encode (make a) = formatNNN (v.toNat / 4096) a) :
    Faithful ⟨name, v, 0xF000, fun op => make (fieldNNN op)⟩ := fun op h => by
  rw [selects_F000 _ _ _ _ hv, decide_eq_true_eq] at h
  exact (he _).trans (formatNNN_fieldNNN h)

theorem of_xkk (make : Reg → Byte → Instr) (hv : v.toNat % 4096 = 0)
    (he : ∀ x kk, encode (make x kk) = formatXKK (v.toNat / 4096) x kk) :
    Faithful ⟨name, v, 0xF000, fun op => make (fieldX op) (fieldKK op)⟩ := fun op h => by
  rw [selects_F000 _ _ _ _ hv, decide_eq_true_eq] at h
  exact (he _ _).trans (formatXKK_fields h)

theorem of_xyn (make : Reg → Reg → Fin 16 → Instr) (hv : v.toNat % 4096 = 0)
    (he : ∀ x y n, encode (make x y n) = formatXYN (v.toNat / 4096) x y n.val) :
    Faithful ⟨name, v, 0xF000, fun op => make (fieldX op) (fieldY op) (fieldN op)⟩ := fun op h => by
  rw [selects_F000 _ _ _ _ hv, decide_eq_true_eq] at h
  exact (he _ _ _).trans (formatXYN_fields h rfl)

theorem of_xy (make : Reg → Reg → Instr) (hv : v.toNat / 16 % 256 = 0)
    (he : ∀ x y, encode (make x y) = formatXYN (v.toNat / 4096) x y (v.toNat % 16)) :
    Faithful ⟨name, v, 0xF00F, fun op => make (fieldX op) (fieldY op)⟩ := fun op h => by
  rw [selects_F00F _ _ _ _ hv, Bool.and_eq_true, decide_eq_true_eq, decide_eq_true_eq] at h
  exact (he _ _).trans (formatXYN_fields h.1 h.2)

theorem of_x (make : Reg → Instr) (hv : v.toNat / 256 % 16 = 0)
    (he : ∀ x, encode (make x) = formatX (v.toNat / 4096) x (v.toNat % 256)) :
    Faithful ⟨name, v, 0xF0FF, fun op => make (fieldX op)⟩ := fun op h => by
  rw [selects_F0FF _ _ _ _ hv, Bool.and_eq_true, decide_eq_true_eq, decide_eq_true_eq] at h
  exact (he _).trans (formatX_fieldX h.1 h.2)

end OpcodeRow.Faithful

theorem faithful_family0 (hasExit : Bool) : ∀ r ∈ rowsFamily0 hasExit, r.Faithful := by
  simp only [rowsFamily0, List.forall_mem_append, List.forall_mem_cons]
  refine ⟨⟨⟨.of_fixed rfl, .of_fixed rfl, nofun⟩, ?_⟩, .of_nnn .sys rfl fun _ => rfl, nofun⟩
  cases hasExit
  · exact nofun
  · exact List.forall_mem_singleton.2 (.of_fixed rfl)

theorem faithful_family1to7 : ∀ r ∈ rowsFamily1to7, r.Faithful := by
  simp only [rowsFamily1to7, List.forall_mem_cons]
  exact ⟨.of_nnn .jp rfl fun _ => rfl, .of_nnn .call rfl fun _ => rfl, .of_xkk .seByte rfl fun _ _ => rfl,
    .of_xkk .sneByte rfl fun _ _ => rfl, .of_xy .seReg rfl fun _ _ => rfl, .of_xkk .ldByte rfl fun _ _ => rfl,
    .of_xkk .addByte rfl fun _ _ => rfl, nofun⟩

theorem faithful_family8 : ∀ r ∈ rowsFamily8, r.Faithful := by
  simp only [rowsFamily8, List.forall_mem_cons]
  exact ⟨.of_xy .ldReg rfl fun _ _ => rfl, .of_xy .orReg rfl fun _ _ => rfl, .of_xy .andReg rfl fun _ _ => rfl,
    .of_xy .xorReg rfl fun _ _ => rfl, .of_xy .addReg rfl fun _ _ => rfl, .of_xy .subReg rfl fun _ _ => rfl,
    .of_xy .shr rfl fun _ _ => rfl, .of_xy .subnReg rfl fun _ _ => rfl, .of_xy .shl rfl fun _ _ => rfl, nofun⟩

theorem faithful_family9toD : ∀ r ∈ rowsFamily9toD, r.Faithful := by
  simp only [rowsFamily9toD, List.forall_mem_cons]
  exact ⟨.of_xy .sneReg rfl fun _ _ => rfl, .of_nnn .ldI rfl fun _ => rfl, .of_nnn .jpV0 rfl fun _ => rfl,
    .of_xkk .rnd rfl fun _ _ => rfl, .of_xyn .drw rfl fun _ _ _ => rfl, nofun⟩

theorem faithful_familyE : ∀ r ∈ rowsFamilyE, r.Faithful := by
  simp only [rowsFamilyE, List.forall_mem_cons]
  exact ⟨.of_x .skp rfl fun _ => rfl, .of_x .sknp rfl fun _ => rfl, nofun⟩

theorem faithful_familyF : ∀ r ∈ rowsFamilyF, r.Faithful := by
  simp only [rowsFamilyF, List.forall_mem_cons]
  exact ⟨.of_x .ldVxDT rfl fun _ => rfl, .of_x .ldVxK rfl fun _ => rfl, .of_x .ldDTVx rfl fun _ => rfl,
    .of_x .ldSTVx rfl fun _ => rfl, .of_x .addIVx rfl fun _ => rfl, .of_x .ldFVx rfl fun _ => rfl,
    .of_x .ldBVx rfl fun _ => rfl, .of_x .ldMemVx rfl fun _ => rfl, .of_x .ldVxMem rfl fun _ => rfl, nofun⟩

theorem faithful_opcodeMap (hasExit : Bool) : ∀ r ∈ opcodeMap hasExit, r.Faithful := by
  simp only [opcodeMap, List.forall_mem_append]
  exact ⟨⟨⟨⟨⟨faithful_family0 hasExit, faithful_family1to7⟩, faithful_family8⟩, faithful_family9toD⟩,
    faithful_familyE⟩, faithful_familyF⟩

/-- The decoder loses no bit of a legal word, under both values of `HAS_EXIT`. -/
theorem encode_of_decodeWith {hasExit : Bool} {op : Word} {i : Instr} (h : decodeWith hasExit op = .ok i) :
    encode i = op := by
  unfold decodeWith at h
  split at h
  next r hr =>
    cases h
    exact faithful_opcodeMap hasExit r (List.mem_of_find?_eq_some hr) op
      (List.find?_some (p := fun r : OpcodeRow => r.selects op) hr)
  next => cases h

theorem encode_of_decode {op : Word} {i : Instr} (h : decode op = .ok i) : encode i = op := encode_of_decodeWith h

/-! ### The switch `HAS_EXIT` (00_scope R11) -/

/-- The row of 00FD is the only one the switch adds, and it selects 00FD alone. -/
theorem firstOf_family0_of_ne {op : Word} (h : op ≠ 0x00FD) :
    firstOf (rowsFamily0 false) op = firstOf (rowsFamily0 true) op := by
  have hexit : firstOf [⟨"00FD", 0x00FD, 0xFFFF, fun _ => .exit⟩] op = none := by
    rw [firstOf_cons, selects_FFFF, if_neg, firstOf_nil]
    exact fun hsel => h (BitVec.eq_of_toNat_eq (of_decide_eq_true hsel))
  simp only [rowsFamily0, firstOf_append, if_true, Bool.false_eq_true, if_false, hexit, firstOf_nil]

theorem decodeWith_of_ne {op : Word} (h : op ≠ 0x00FD) (hasExit : Bool) : decodeWith hasExit op = decode op := by
  cases hasExit
  · simp only [decode, decodeWith_firstOf, opcodeMap, firstOf_append, firstOf_family0_of_ne h]
  · rfl

/-- Settles O8: the switch adds one row to the opcode map, and it selects 00FD alone. -/
theorem hasExitSwitch : Obligations.HasExitSwitch :=
  ⟨rfl, by decide, by decide, fun hasExit _ h => decodeWith_of_ne h hasExit⟩

end Sys2Proof

/-! ## Fetch, ticks and the instructions that can stop the machine -/

namespace Sys2Proof.Machine

/-! ### The Tick (00_scope R8, 60_exceptions R182) -/

/-- A Tick of a running machine lowers both timers, not below zero, and changes nothing else. -/
theorem State.tick_lowers_timers {s : State} (h : s.run = .running) :
    s.tick.dt.toNat = s.dt.toNat - 1 ∧ s.tick.st.toNat = s.st.toNat - 1 ∧ s.changesOnly s.tick (· ∈ [.dt, .st]) := by
  rw [s.tick_of_running h]
  refine ⟨toNat_decrement s.dt, toNat_decrement s.st, ?_⟩
  exact ((s.changesOnly_setDT _).mono (by simp +contextual)).trans
    ((State.changesOnly_setST _ _).mono (by simp +contextual))

/-- Settles O16: the end of a Step is the identity without the switch and a Tick with it. -/
theorem timerPerStepSwitch : Obligations.TimerPerStepSwitch :=
  ⟨rfl, finishStep_false, fun s h => ⟨s.tick, rfl, State.tick_lowers_timers h⟩,
    fun s h => congrArg Host.Outcome.next (s.tick_of_stopped h)⟩

/-! ### The bounds of a fetch and of a memory access -/

theorem State.fetch_eq_none_iff {s : State} : s.fetch = none ↔ s.pc.toNat + 1 ≥ params.memSize := by
  rw [State.fetch_eq, ite_eq_right_iff]
  simp only [reduceCtorEq, imp_false, Nat.not_lt, ge_iff_le]

/-- The instruction fetched lies below `MEM_SIZE`. -/
theorem State.pc_lt_of_fetch {s : State} {op : Word} (h : s.fetch = some op) : s.pc.toNat + 1 < params.memSize := by
  refine Nat.lt_of_not_le fun hle => ?_
  rw [State.fetch_eq_none_iff.2 hle] at h
  cases h

/-- After a fetch the pre-increment does not wrap. -/
theorem State.advance_pc_of_fetch {s : State} {op : Word} (h : s.fetch = some op) :
    s.advance.pc.toNat = s.pc.toNat + 2 := by
  have hpc : s.pc.toNat + 1 < 4095 := s.pc_lt_of_fetch h
  show (s.pc + 2#16).toNat = _
  bv_omega

theorem State.memRead_eq_none_iff {s : State} {a n : Nat} :
    s.memRead a n = none ↔ n > 0 ∧ a + n - 1 ≥ params.memSize := by
  rw [State.memRead_eq, params_memSize, ite_eq_right_iff]
  simp only [reduceCtorEq, imp_false]
  omega

theorem State.memWrite_eq_none_iff {s : State} {a : Nat} {vs : List Byte} :
    s.memWrite a vs = none ↔ vs.length > 0 ∧ a + vs.length - 1 ≥ params.memSize := by
  rw [State.memWrite_eq, params_memSize, ite_eq_right_iff]
  simp only [reduceCtorEq, imp_false]
  omega

theorem State.run_of_memWrite {s t : State} {a : Nat} {vs : List Byte} (h : s.memWrite a vs = some t) :
    t.run = s.run := by
  rw [State.memWrite_eq] at h
  split at h <;> cases h
  rfl

/-! ### How an instruction leaves the run state (60_exceptions R171 to R174) -/

/-- An instruction keeps the run state, or is EXIT, or enters a fault whose cause held before it. -/
theorem exec_run_cases {op : Word} {i : Instr} {s t : State} (hd : decode op = .ok i) (h : exec i s = .next t) :
    t.run = s.run ∨ (i = .exit ∧ t = s.setRun .halted) ∨ ∃ k, t = s.raiseIn k i ∧ k.cause s (some op) := by
  cases i with
  | exit => cases h; exact .inr (.inl ⟨rfl, rfl⟩)
  | ret =>
    simp only [exec, execRet] at h
    split at h
    next h0 => cases h; exact .inr (.inr ⟨.stackUnderflow, rfl, hd, h0⟩)
    next => split at h <;> cases h; exact .inl rfl
  | call nnn =>
    simp only [exec, execCall] at h
    split at h
    next => cases h; exact .inl rfl
    next hfull => cases h; exact .inr (.inr ⟨.stackOverflow, rfl, nnn, hd, Nat.le_of_not_lt hfull⟩)
  | drw x y n =>
    simp only [exec, execDrw, drawSprite] at h
    split at h
    next hr => cases h; exact .inr (.inr ⟨.memoryOutOfBounds, rfl, _, hd, State.memRead_eq_none_iff.1 hr⟩)
    next => cases h; exact .inl rfl
  | ldVxMem x =>
    simp only [exec, execLdVxMem] at h
    split at h
    next hr => cases h; exact .inr (.inr ⟨.memoryOutOfBounds, rfl, _, hd, State.memRead_eq_none_iff.1 hr⟩)
    next => cases h; exact .inl rfl
  | ldBVx x =>
    simp only [exec, execLdBVx] at h
    split at h
    next hw => cases h; exact .inr (.inr ⟨.memoryOutOfBounds, rfl, _, hd, State.memWrite_eq_none_iff.1 hw⟩)
    next hw => cases h; exact .inl (State.run_of_memWrite hw)
  | ldMemVx x =>
    simp only [exec, execLdMemVx] at h
    split at h
    next hw =>
      cases h
      have hout := State.memWrite_eq_none_iff.1 hw
      rw [State.length_regsUpTo] at hout
      exact .inr (.inr ⟨.memoryOutOfBounds, rfl, _, hd, hout⟩)
    next t hw =>
      cases h
      have hrun : (bumpI t x).run = t.run := rfl
      exact .inl (hrun.trans (State.run_of_memWrite hw))
  | ldVxK x =>
    cases h
    unfold waitKey
    split <;> exact .inl rfl
  | seByte | sneByte | seReg | sneReg | skp | sknp =>
    cases h
    rw [State.skipIf_eq]
    exact .inl rfl
  | _ => cases h; exact .inl rfl

/-- RET at an SP above 16 is the one way for an instruction not to answer a next state (10_state R24). -/
theorem exec_answers_next (i : Instr) {s : State} (hsp : s.sp.toNat ≤ 16) : ∃ t, exec i s = .next t := by
  cases i with
  | ret =>
    simp only [exec, execRet]
    split
    · exact ⟨_, rfl⟩
    · rw [dif_pos (by omega)]
      exact ⟨_, rfl⟩
  | call nnn => simp only [exec, execCall]; split <;> exact ⟨_, rfl⟩
  | drw x y n => simp only [exec, execDrw, drawSprite]; split <;> exact ⟨_, rfl⟩
  | ldBVx x => simp only [exec, execLdBVx]; split <;> exact ⟨_, rfl⟩
  | ldMemVx x => simp only [exec, execLdMemVx]; split <;> exact ⟨_, rfl⟩
  | ldVxMem x => simp only [exec, execLdVxMem]; split <;> exact ⟨_, rfl⟩
  | _ => exact ⟨_, rfl⟩

theorem step_answers_next {s : State} (hsp : s.sp.toNat ≤ 16) : ∃ t, step s = .next t := by
  by_cases hrun : s.run = .running
  · cases hf : s.fetch with
    | none => exact ⟨_, step_of_no_fetch hrun hf⟩
    | some op =>
      cases hd : decode op with
      | error e => exact ⟨_, step_of_illegal hrun hf hd⟩
      | ok i =>
        rw [step_of_decode hrun hf hd]
        exact exec_answers_next i hsp
  · exact ⟨s, step_of_stopped hrun⟩

end Sys2Proof.Machine

/-! ## The invariant under every event -/

namespace Sys2Proof.Machine

/-- The cause of a fault reads I and SP, and PC where no word was fetched. -/
theorem FaultKind.cause_congr {s t : State} (k : FaultKind) (w : Option Word) (hi : t.i = s.i) (hsp : t.sp = s.sp)
    (hpc : w = none → t.pc = s.pc) : k.cause t w ↔ k.cause s w := by
  cases w with
  | none => cases k <;> simp only [FaultKind.cause, hpc rfl]
  | some op => cases k <;> simp only [FaultKind.cause, hi, hsp]

namespace State

/-- The invariant says nothing of V, the timers, the display, the key latch and the count of draws. -/
theorem Inv.congr {s t : State} (hs : s.Inv) (hmem : t.mem = s.mem) (hsp : t.sp = s.sp) (hstack : t.stack = s.stack)
    (hpc : t.pc = s.pc) (hi : t.i = s.i) (hrun : t.run = s.run) : t.Inv where
  memWf := by rw [hmem]; exact hs.memWf
  spLegal := by rw [hsp]; exact hs.spLegal
  returnsLegal := by rw [hstack]; exact hs.returnsLegal
  pcLegal := by rw [hpc]; exact hs.pcLegal
  runTrue := by
    have htrue := hs.runTrue
    have hback : (t.setPC (t.pc - 2#16)).fetch = (s.setPC (s.pc - 2#16)).fetch := fetch_congr (by simp [hpc]) hmem
    unfold State.runTrue at htrue ⊢
    rw [hrun]
    cases hr : s.run with
    | running => trivial
    | halted => simpa only [hr, hback] using htrue
    | faulted k addr w =>
      simpa only [hr, hpc, fetch_congr hpc hmem, k.cause_congr w hi hsp fun _ => hpc] using htrue

/-- A running machine has no record to keep true. -/
theorem runTrue_of_running {s : State} (h : s.run = .running) : s.runTrue := by
  simp only [State.runTrue, h]

/-- Entering a fault whose record is true. -/
theorem Inv.raise {s : State} (hs : s.Inv) {k : FaultKind} {w : Option Word} (hw : w = s.fetch) (hc : k.cause s w) :
    (s.raise k s.pc w).Inv where
  memWf := hs.memWf
  spLegal := hs.spLegal
  returnsLegal := hs.returnsLegal
  pcLegal := hs.pcLegal
  runTrue := ⟨rfl, hw.trans (fetch_congr rfl rfl), (k.cause_congr w rfl rfl fun _ => rfl).2 hc⟩

/-- An executing instruction raises at its own address (40_step_cycle R94). -/
theorem raiseIn_advance (s : State) (k : FaultKind) (i : Instr) :
    s.advance.raiseIn k i = s.raise k s.pc (some (encode i)) := by
  simp [raiseIn, State.raise, advance, setPC]

end State

/-! ### A Step -/

section ExecutingStep

variable {op : Word} {i : Instr} {s t : State}

/-- PC after an instruction is at most 0x10FE, the largest sum of Bnnn (40_step_cycle R92). -/
theorem exec_pcLegal (hs : s.Inv) (hf : s.fetch = some op) (h : exec i s.advance = .next t) :
    t.pc.toNat ≤ 0x10FE := by
  have hlt : s.pc.toNat + 1 < 4095 := s.pc_lt_of_fetch hf
  have hadv := s.advance_pc_of_fetch hf
  rcases (exec_writes h).pc with hpc | ⟨hpc, -⟩ | ⟨hpc, -⟩ | ⟨nnn, hpc, -⟩ | ⟨nnn, hpc, -⟩ | ⟨⟨k, hpc⟩, -⟩
  · rw [hpc]; omega
  · rw [hpc]; bv_omega
  · rw [hpc]; bv_omega
  · have := nnn.isLt
    rw [hpc, toNat_zext16_addr]
    omega
  · have := nnn.isLt
    have := (s.advance.getV 0).isLt
    rw [hpc, BitVec.toNat_add, toNat_zext16_byte, toNat_zext16_addr]
    omega
  · have hret : s.stack[k.val].toNat ≤ 4095 := hs.returnsLegal k
    rw [hpc]
    exact Nat.le_trans hret (by decide)

/-- SP stays within 0 to 16 (10_state R24). -/
theorem exec_spLegal (hs : s.Inv) (h : exec i s.advance = .next t) : t.sp.toNat ≤ 16 := by
  have hsp : s.advance.sp.toNat ≤ 16 := hs.spLegal
  rcases (exec_writes h).sp with heq | ⟨-, heq, hne⟩ | ⟨-, heq, hlt⟩
  · rw [heq]; exact hsp
  · rw [heq]; bv_omega
  · rw [heq]; bv_omega

/-- A CALL pushes an address past a word that was fetched (40_step_cycle R92). -/
theorem exec_returnsLegal (hs : s.Inv) (hf : s.fetch = some op) (h : exec i s.advance = .next t) (k : Fin 16) :
    t.stack[k.val].toNat ≤ params.memSize := by
  have hlt : s.pc.toNat + 1 < 4095 := s.pc_lt_of_fetch hf
  have hadv := s.advance_pc_of_fetch hf
  rcases (exec_writes h).stack with heq | ⟨-, j, -, heq⟩
  · simp only [heq]
    exact hs.returnsLegal k
  · simp only [heq, Vector.getElem_set]
    split
    · rw [hadv]
      omega
    · exact hs.returnsLegal k

theorem exec_memWf (hs : s.Inv) (h : exec i s.advance = .next t) : t.mem.wf := by
  rcases (exec_writes h).mem with heq | ⟨hwf, -⟩
  · rw [heq]; exact hs.memWf
  · exact hwf hs.memWf

/-- A machine that EXIT halted stands just past the word 00FD (41_control_flow R102). -/
theorem runTrue_of_exit (hf : s.fetch = some op) (hd : decode op = .ok .exit) :
    (s.advance.setRun .halted).runTrue := by
  show ((s.advance.setRun .halted).setPC (s.pc + 2#16 - 2#16)).fetch = some (encode .exit)
  rw [encode_of_decode hd, ← hf]
  exact State.fetch_congr (advance_back s.pc) rfl

theorem exec_keeps_inv (hs : s.Inv) (hrun : s.run = .running) (hf : s.fetch = some op) (hd : decode op = .ok i)
    (h : exec i s.advance = .next t) : t.Inv := by
  have hinv (htrue : t.runTrue) : t.Inv :=
    ⟨exec_memWf hs h, exec_spLegal hs h, exec_returnsLegal hs hf h, exec_pcLegal hs hf h, htrue⟩
  rcases exec_run_cases hd h with hsame | ⟨rfl, rfl⟩ | ⟨k, rfl, hc⟩
  · exact hinv (State.runTrue_of_running (hsame.trans hrun))
  · exact hinv (runTrue_of_exit hf hd)
  · rw [s.raiseIn_advance, encode_of_decode hd]
    exact hs.raise hf.symm ((k.cause_congr (s := s) (t := s.advance) (some op) rfl rfl nofun).1 hc)

end ExecutingStep

theorem step_keeps_inv {s t : State} (hs : s.Inv) (h : step s = .next t) : t.Inv := by
  rcases step_cases h with ⟨-, rfl⟩ | ⟨-, hf, rfl⟩ | ⟨op, e, -, hf, hd, rfl⟩ | ⟨op, i, hrun, hf, hd, hexec⟩
  · exact hs
  · exact hs.raise hf.symm (State.fetch_eq_none_iff.1 hf)
  · exact hs.raise hf.symm ⟨e, hd⟩
  · exact exec_keeps_inv hs hrun hf hd hexec

/-! ### The other events -/

namespace State

theorem reset_inv : State.reset.Inv where
  memWf := Memory.reset_wf
  spLegal := by decide
  returnsLegal := by decide
  pcLegal := by decide
  runTrue := trivial

theorem restart_inv (s : State) : s.restart.Inv := reset_inv.congr rfl rfl rfl rfl rfl rfl

theorem Inv.setKeys {s : State} (hs : s.Inv) (ks : BitVec 16) : (s.setKeys ks).Inv :=
  hs.congr rfl rfl rfl rfl rfl rfl

theorem Inv.tick {s : State} (hs : s.Inv) : s.tick.Inv := by
  by_cases hrun : s.run = .running
  · rw [s.tick_of_running hrun]
    exact hs.congr rfl rfl rfl rfl rfl rfl
  · rw [s.tick_of_stopped hrun]
    exact hs

theorem run_of_justReset {s : State} (h : s.justReset = true) : s.run = .running := by
  rw [beq_iff_eq.1 h]
  rfl

/-- An accepted LoadROM finds a running machine and writes below `MEM_SIZE` (70_reset_and_hazards R201, R202). -/
theorem Inv.loadRom {s t : State} (hs : s.Inv) {bytes : List Byte} (h : s.loadRom bytes = .next t) : t.Inv := by
  unfold State.loadRom at h
  split at h
  · cases h
  next hlen =>
    have hfits : inBounds Config.progBase bytes.length = true := by
      rw [inBounds_iff]
      simp only [romMax, Config.progBase] at hlen ⊢
      omega
    split at h
    next hreset =>
      cases h
      have hrun : (s.withRom bytes).run = s.run := rfl
      exact ⟨Memory.wf_writeAll hs.memWf hfits, hs.spLegal, hs.returnsLegal, hs.pcLegal,
        runTrue_of_running (hrun.trans (run_of_justReset hreset))⟩
    next => cases h

end State

/-! ### Runs -/

/-- Every event but LoadROM answers a next state, and it meets the invariant. -/
theorem applyEvent_keeps_inv {e : Event} {s : State} (hs : s.Inv) (he : ∀ bytes, e ≠ .loadRom bytes) :
    ∃ t, applyEvent e s = .next t ∧ t.Inv := by
  cases e with
  | reset => exact ⟨_, rfl, s.restart_inv⟩
  | loadRom bytes => exact absurd rfl (he bytes)
  | step =>
    obtain ⟨t, ht⟩ := step_answers_next hs.spLegal
    exact ⟨t, ht, step_keeps_inv hs ht⟩
  | tick => exact ⟨_, rfl, hs.tick⟩
  | keySet k => exact ⟨_, rfl, hs.setKeys _⟩
  | keyClear k => exact ⟨_, rfl, hs.setKeys _⟩

theorem runEvents_keeps_inv (events : List Event) {s : State} (hs : s.Inv)
    (hrom : ∀ bytes, Event.loadRom bytes ∉ events) : ∃ t, runEvents events s = .next t ∧ t.Inv := by
  induction events generalizing s with
  | nil => exact ⟨s, rfl, hs⟩
  | cons e es ih =>
    have he : ∀ bytes, e ≠ .loadRom bytes := fun bytes heq => hrom bytes (heq ▸ List.mem_cons_self)
    obtain ⟨u, hu, huinv⟩ := applyEvent_keeps_inv hs he
    simp only [runEvents, hu]
    exact ih huinv fun bytes hmem => hrom bytes (List.mem_cons_of_mem _ hmem)

/-- Settles O19, by induction on the schedule: every event answers a next state that meets the invariant. -/
theorem runsNeverStopAndKeepInvariant : Obligations.RunsNeverStopAndKeepInvariant :=
  ⟨fun events _ hs hrom => runEvents_keeps_inv events hs hrom, fun _ _ _ hs h => hs.loadRom h⟩

end Sys2Proof.Machine

/-! ## The state (10_state R20 to R34) -/

namespace Sys2Proof.Machine

open Claims

/-! ### The invariant -/

/-- Settles O18: the four ways a Step answers a next state each keep the invariant. -/
theorem stepKeepsInvariant : Obligations.StepKeepsInvariant := fun _ _ hs h => step_keeps_inv hs h

/-- Settles O15: RET at an SP above 16 is the one way to stop the model. -/
theorem stepAlwaysAnswersNext : Obligations.StepAlwaysAnswersNext := fun _ hsp => step_answers_next hsp

/-- Settles O17: memory lists nothing, SP and the stack are 0, PC is 0x200, and the machine runs. -/
theorem invariantHoldsAtReset : Obligations.InvariantHoldsAtReset := State.reset_inv

/-! ### The canonical form of memory -/

theorem Memory.read_cons (c : Host.Cell) (m : Memory) (a : Nat) :
    Memory.read (c :: m) a = if a = c.1 then c.2 else m.read a := rfl

theorem Memory.wf_cons {c : Host.Cell} {m : Memory} :
    Memory.wf (c :: m) ↔ (∀ d ∈ m, c.1 < d.1) ∧ (c.1 < params.memSize ∧ c.2 ≠ resetByte c.1) ∧ m.wf := by
  simp only [Memory.wf, List.pairwise_cons, List.forall_mem_cons]
  tauto

/-- A memory that lists an address does not read like one that lists only higher ones. -/
theorem Memory.not_alike_of_lt {c : Host.Cell} {m m' : Memory} (hm : Memory.wf (c :: m))
    (hlt : ∀ d ∈ m', c.1 < d.1) : ¬ ∀ a, a < params.memSize → Memory.read (c :: m) a = m'.read a := fun halike => by
  obtain ⟨-, ⟨hsize, hlisted⟩, -⟩ := Memory.wf_cons.1 hm
  have hread := halike c.1 hsize
  rw [Memory.read_cons, if_pos rfl, Memory.read_of_lt hlt] at hread
  exact hlisted hread

/-- Of two memories that read alike, neither lists a lower first address. -/
theorem Memory.not_lt_of_alike {c d : Host.Cell} {m m' : Memory} (hm : Memory.wf (c :: m)) (hm' : Memory.wf (d :: m'))
    (halike : ∀ a, a < params.memSize → Memory.read (c :: m) a = Memory.read (d :: m') a) : ¬ c.1 < d.1 := fun hlt => by
  have hd := (Memory.wf_cons.1 hm').1
  have hbelow : ∀ e ∈ d :: m', c.1 < e.1 := List.forall_mem_cons.2 ⟨hlt, fun e he => hlt.trans (hd e he)⟩
  exact Memory.not_alike_of_lt hm hbelow halike

/-- Settles O25, by induction on both lists: the first entries stand at the same address and hold the same byte, and
the rests read alike. -/
theorem canonicalMemoriesThatReadAlikeAreEqual : Obligations.CanonicalMemoriesThatReadAlikeAreEqual := by
  intro m
  induction m with
  | nil =>
    intro m' _ hm' halike
    cases m' with
    | nil => rfl
    | cons d m' => exact absurd (fun a ha => (halike a ha).symm) (Memory.not_alike_of_lt hm' (by simp))
  | cons c m ih =>
    intro m' hm hm' halike
    cases m' with
    | nil => exact absurd halike (Memory.not_alike_of_lt hm (by simp))
    | cons d m' =>
      obtain ⟨hc, ⟨hsize, -⟩, htail⟩ := Memory.wf_cons.1 hm
      obtain ⟨hd, -, htail'⟩ := Memory.wf_cons.1 hm'
      have haddr : c.1 = d.1 := Nat.le_antisymm
        (Nat.not_lt.1 (Memory.not_lt_of_alike hm' hm fun a ha => (halike a ha).symm))
        (Nat.not_lt.1 (Memory.not_lt_of_alike hm hm' halike))
      have hbyte : c.2 = d.2 := by simpa [Memory.read_cons, haddr] using halike c.1 hsize
      have hrest : m = m' := ih m' htail htail' fun a ha => by
        by_cases hac : a = c.1
        · rw [hac, Memory.read_of_lt hc, Memory.read_of_lt (haddr ▸ hd)]
        · have := halike a ha
          rwa [Memory.read_cons, Memory.read_cons, if_neg hac, if_neg (haddr ▸ hac)] at this
      rw [hrest, Prod.ext haddr hbyte]

/-! ### VF -/

/-- The instructions that may write VF (10_state R21). -/
theorem writers_of_vf {i : Instr} (h : mayWriteV 15 i = true) :
    (∃ x y, i = .addReg x y ∨ i = .subReg x y ∨ i = .shr x y ∨ i = .subnReg x y ∨ i = .shl x y ∨
      ∃ n, i = .drw x y n) ∨
    (∃ kk, i = .ldByte 15 kk ∨ i = .addByte 15 kk ∨ i = .rnd 15 kk) ∨
    (∃ y, i = .ldReg 15 y ∨ i = .orReg 15 y ∨ i = .andReg 15 y ∨ i = .xorReg 15 y) ∨
    i = .ldVxDT 15 ∨ i = .ldVxK 15 ∨ i = .ldVxMem 15 := by
  cases i with
  | addReg | subReg | shr | subnReg | shl | drw => simp
  | ldByte x | addByte x | rnd x | ldReg x | orReg x | andReg x | xorReg x | ldVxDT x | ldVxK x =>
    obtain rfl : x = 15 := beq_iff_eq.1 h
    simp
  | ldVxMem x =>
    obtain rfl : x = 15 := Fin.last_le_iff.1 (of_decide_eq_true h)
    simp
  | _ => cases h

/-- Settles O52: an instruction that changes VF is one that may write it. -/
theorem onlyFlagInstructionsWriteVF : Obligations.OnlyFlagInstructionsWriteVF := fun _ _ _ h hne =>
  writers_of_vf (((exec_writes h).v 15).resolve_left hne)

/-! ### The writers of each part -/

/-- A Step leaves a stopped machine as it is; a running machine enters a fault at PC, or runs the instruction at PC. -/
theorem step_writes {s t : State} (h : step s = .next t) :
    (s.run ≠ .running ∧ t = s) ∨
    (s.run = .running ∧ ((∃ k, t = s.raise k s.pc s.fetch) ∨ ∃ i, decodesTo s i ∧ ExecWrites i s.advance t)) := by
  rcases step_cases h with hstop | ⟨hrun, hf, rfl⟩ | ⟨op, e, hrun, hf, -, rfl⟩ | ⟨op, i, hrun, hf, hd, hexec⟩
  · exact .inl hstop
  · exact .inr ⟨hrun, .inl ⟨.memoryOutOfBounds, by rw [hf]; rfl⟩⟩
  · exact .inr ⟨hrun, .inl ⟨.unknownOpcode, by rw [hf]; rfl⟩⟩
  · exact .inr ⟨hrun, .inr ⟨i, ⟨op, hf, hd⟩, exec_writes hexec⟩⟩

/-- The record of a raising instruction: PC and the word fetched (60_exceptions R177). -/
theorem run_of_raiseIn {s t : State} {i : Instr} {k : FaultKind} (hd : decodesTo s i) (ht : t = s.advance.raiseIn k i) :
    t.run = .faulted k s.pc s.fetch := by
  obtain ⟨op, hf, hdec⟩ := hd
  rw [ht, s.raiseIn_advance, encode_of_decode hdec, hf]
  rfl

section Writers

variable {s t : State} (h : step s = .next t)
include h

/-- A part of the state that entering a fault does not write is changed by the instruction at PC alone. -/
theorem changed_by_instruction {α : Type} (part : State → α)
    (hraise : ∀ k addr w, part (s.raise k addr w) = part s) (hne : part t ≠ part s) :
    ∃ i, decodesTo s i ∧ ExecWrites i s.advance t := by
  rcases step_writes h with ⟨-, rfl⟩ | ⟨-, ⟨k, rfl⟩ | hexec⟩
  · exact absurd rfl hne
  · exact absurd (hraise _ _ _) hne
  · exact hexec

theorem writers_of_v (k : Reg) (hne : t.getV k ≠ s.getV k) : ∃ i, decodesTo s i ∧ mayWriteV k i = true := by
  obtain ⟨i, hd, hw⟩ := changed_by_instruction h (·.getV k) (fun _ _ _ => rfl) hne
  exact ⟨i, hd, (hw.v k).resolve_left hne⟩

theorem writers_of_i (hne : t.i ≠ s.i) : (∃ nnn, decodesTo s (.ldI nnn)) ∨ ∃ x, decodesTo s (.addIVx x) ∨
    decodesTo s (.ldFVx x) ∨ decodesTo s (.ldMemVx x) ∨ decodesTo s (.ldVxMem x) := by
  obtain ⟨i, hd, hw⟩ := changed_by_instruction h State.i (fun _ _ _ => rfl) hne
  rcases hw.i.resolve_left hne with ⟨nnn, rfl⟩ | ⟨x, rfl | rfl | rfl | rfl⟩
  · exact .inl ⟨nnn, hd⟩
  · exact .inr ⟨x, .inl hd⟩
  · exact .inr ⟨x, .inr (.inl hd)⟩
  · exact .inr ⟨x, .inr (.inr (.inl hd))⟩
  · exact .inr ⟨x, .inr (.inr (.inr hd))⟩

theorem running_of_changed (hne : t ≠ s) : s.run = .running := by
  rcases step_writes h with ⟨-, rfl⟩ | ⟨hrun, -⟩
  · exact absurd rfl hne
  · exact hrun

/-- The ways PC does not end at the next word (10_state R23). -/
theorem writers_of_pc (hrun : s.run = .running) (hne : t.pc ≠ s.pc + 2#16) :
    (t.pc = s.pc ∧ ((∃ k, t.run = .faulted k s.pc s.fetch) ∨ ∃ x, decodesTo s (.ldVxK x))) ∨
    (t.pc = s.pc + 4#16 ∧ ∃ i, decodesTo s i ∧ isSkip i = true) ∨
    (∃ nnn, decodesTo s (.jp nnn) ∨ decodesTo s (.call nnn) ∨ decodesTo s (.jpV0 nnn)) ∨ decodesTo s .ret := by
  rcases step_writes h with ⟨hstop, -⟩ | ⟨-, ⟨k, rfl⟩ | ⟨i, hd, hw⟩⟩
  · exact absurd hrun hstop
  · exact .inl ⟨rfl, .inl ⟨k, rfl⟩⟩
  · rcases hw.pc.resolve_left hne with ⟨hpc, hskip⟩ | ⟨hpc, ⟨k, hraise⟩ | ⟨x, rfl⟩⟩ | ⟨nnn, -, rfl | rfl⟩ |
      ⟨nnn, -, rfl⟩ | ⟨-, rfl⟩
    · refine .inr (.inl ⟨?_, i, hd, hskip⟩)
      rw [hpc]
      exact BitVec.add_assoc s.pc 2#16 2#16
    · exact .inl ⟨hpc.trans (advance_back s.pc), .inl ⟨k, run_of_raiseIn hd hraise⟩⟩
    · exact .inl ⟨hpc.trans (advance_back s.pc), .inr ⟨x, hd⟩⟩
    · exact .inr (.inr (.inl ⟨nnn, .inl hd⟩))
    · exact .inr (.inr (.inl ⟨nnn, .inr (.inl hd)⟩))
    · exact .inr (.inr (.inl ⟨nnn, .inr (.inr hd)⟩))
    · exact .inr (.inr (.inr hd))

theorem writers_of_sp (hne : t.sp ≠ s.sp) : decodesTo s .ret ∨ ∃ nnn, decodesTo s (.call nnn) := by
  obtain ⟨i, hd, hw⟩ := changed_by_instruction h State.sp (fun _ _ _ => rfl) hne
  rcases hw.sp.resolve_left hne with ⟨rfl, -⟩ | ⟨⟨nnn, rfl⟩, -⟩
  · exact .inl hd
  · exact .inr ⟨nnn, hd⟩

theorem writers_of_stack (hne : t.stack ≠ s.stack) : ∃ nnn, decodesTo s (.call nnn) := by
  obtain ⟨i, hd, hw⟩ := changed_by_instruction h State.stack (fun _ _ _ => rfl) hne
  obtain ⟨⟨nnn, rfl⟩, -⟩ := hw.stack.resolve_left hne
  exact ⟨nnn, hd⟩

theorem writers_of_dt (hne : t.dt ≠ s.dt) : ∃ x, decodesTo s (.ldDTVx x) := by
  obtain ⟨i, hd, hw⟩ := changed_by_instruction h State.dt (fun _ _ _ => rfl) hne
  obtain ⟨x, rfl⟩ := hw.dt.resolve_left hne
  exact ⟨x, hd⟩

theorem writers_of_st (hne : t.st ≠ s.st) : ∃ x, decodesTo s (.ldSTVx x) := by
  obtain ⟨i, hd, hw⟩ := changed_by_instruction h State.st (fun _ _ _ => rfl) hne
  obtain ⟨x, rfl⟩ := hw.st.resolve_left hne
  exact ⟨x, hd⟩

theorem writers_of_mem (hne : t.mem ≠ s.mem) : ∃ x, decodesTo s (.ldBVx x) ∨ decodesTo s (.ldMemVx x) := by
  obtain ⟨i, hd, hw⟩ := changed_by_instruction h State.mem (fun _ _ _ => rfl) hne
  obtain ⟨-, x, rfl | rfl⟩ := hw.mem.resolve_left hne
  · exact ⟨x, .inl hd⟩
  · exact ⟨x, .inr hd⟩

theorem writers_of_fb (hne : t.fb ≠ s.fb) : decodesTo s .cls ∨ ∃ x y n, decodesTo s (.drw x y n) := by
  obtain ⟨i, hd, hw⟩ := changed_by_instruction h State.fb (fun _ _ _ => rfl) hne
  rcases hw.fb.resolve_left hne with rfl | ⟨x, y, n, rfl⟩
  · exact .inl hd
  · exact .inr ⟨x, y, n, hd⟩

/-- No Step writes the key latch (60_exceptions R183). -/
theorem step_keeps_keys : t.keys = s.keys := by
  by_contra hne
  obtain ⟨i, -, hw⟩ := changed_by_instruction h State.keys (fun _ _ _ => rfl) hne
  exact hne hw.keys

theorem writers_of_run (hne : t.run ≠ s.run) :
    (decodesTo s .exit ∧ t.run = .halted) ∨ ∃ k, t.run = .faulted k s.pc s.fetch := by
  rcases step_writes h with ⟨-, rfl⟩ | ⟨-, ⟨k, rfl⟩ | ⟨i, hd, hw⟩⟩
  · exact absurd rfl hne
  · exact .inr ⟨k, rfl⟩
  · rcases hw.run.resolve_left hne with ⟨rfl, hhalt⟩ | ⟨k, hraise⟩
    · exact .inl ⟨hd, hhalt⟩
    · exact .inr ⟨k, run_of_raiseIn hd hraise⟩

theorem writers_of_rndDraws (hne : t.rndDraws ≠ s.rndDraws) : ∃ x kk, decodesTo s (.rnd x kk) := by
  obtain ⟨i, hd, hw⟩ := changed_by_instruction h State.rndDraws (fun _ _ _ => rfl) hne
  obtain ⟨x, kk, rfl⟩ := hw.rndDraws.resolve_left hne
  exact ⟨x, kk, hd⟩

end Writers

/-- Settles O53, part by part, from what the instruction at PC writes. -/
theorem eachPartHasItsWriters : Obligations.EachPartHasItsWriters :=
  ⟨rfl, fun _ _ h => ⟨writers_of_v h, writers_of_i h, fun hne => running_of_changed h (ne_of_apply_ne State.pc hne),
    writers_of_pc h, writers_of_sp h, writers_of_stack h, writers_of_dt h, writers_of_st h, writers_of_mem h,
    writers_of_fb h, fun k => congrArg (·.getLsbD k.val) (step_keeps_keys h),
    fun hne => ⟨running_of_changed h (ne_of_apply_ne State.run hne), writers_of_run h hne⟩, writers_of_rndDraws h⟩⟩

/-! ### What no instruction reads: ST, and the stack but for CALL and RET -/

/-- The state with another call stack and another ST. -/
def State.withUnread (s : State) (stack : Vector Word 16) (b : Byte) : State := { s with stack := stack, st := b }

/-- An outcome with its next state changed. -/
def mapNext (f : State → State) : Host.Outcome State Fault Refusal → Host.Outcome State Fault Refusal
  | .next t => .next (f t)
  | .fault r => .fault r
  | .refused r => .refused r

/-- The instructions that use the call stack or write ST. -/
def usesStackOrST (i : Instr) : Prop := i = .ret ∨ (∃ nnn, i = .call nnn) ∨ ∃ x, i = .ldSTVx x

section Unread

variable (stack : Vector Word 16) (b : Byte)

@[simp] theorem State.skipIf_withUnread (s : State) (c : Bool) :
    (s.withUnread stack b).skipIf c = (s.skipIf c).withUnread stack b := by cases c <;> rfl

@[simp] theorem State.withUnread_i (s : State) : (s.withUnread stack b).i = s.i := rfl

@[simp] theorem State.regsUpTo_withUnread (s : State) (x : Reg) : (s.withUnread stack b).regsUpTo x = s.regsUpTo x := rfl

@[simp] theorem State.getV_withUnread (s : State) (x : Reg) : (s.withUnread stack b).getV x = s.getV x := rfl

@[simp] theorem State.memRead_withUnread (s : State) (a n : Nat) :
    (s.withUnread stack b).memRead a n = s.memRead a n := rfl

@[simp] theorem State.memWrite_withUnread (s : State) (a : Nat) (bytes : List Byte) :
    (s.withUnread stack b).memWrite a bytes = (s.memWrite a bytes).map (·.withUnread stack b) := by
  unfold State.memWrite
  split <;> rfl

theorem waitKey_withUnread (select : BitVec 16 → Key) (x : Reg) (s : State) :
    waitKey select x (s.withUnread stack b) = (waitKey select x s).withUnread stack b := by
  show (if s.keys = 0#16 then _ else _) = _
  unfold waitKey
  split <;> rfl

theorem State.fetch_withUnread (s : State) : (s.withUnread stack b).fetch = s.fetch := State.fetch_congr rfl rfl

/-- An instruction that does not use the stack or ST does the same whatever they hold, and keeps them. -/
theorem exec_withUnread {i : Instr} (hi : ¬ usesStackOrST i) (s : State) :
    exec i (s.withUnread stack b) = mapNext (·.withUnread stack b) (exec i s) := by
  cases i with
  | ret => exact absurd (.inl rfl) hi
  | call nnn => exact absurd (.inr (.inl ⟨nnn, rfl⟩)) hi
  | ldSTVx x => exact absurd (.inr (.inr ⟨x, rfl⟩)) hi
  | seByte | sneByte | seReg | sneReg | skp | sknp => exact congrArg _ (s.skipIf_withUnread stack b _)
  | drw x y n =>
    simp only [exec, execDrw, drawSprite, State.memRead_withUnread, State.withUnread_i]
    cases s.memRead s.i.toNat n.val <;> rfl
  | ldVxMem x =>
    simp only [exec, execLdVxMem, State.memRead_withUnread, State.withUnread_i]
    cases s.memRead s.i.toNat (x.val + 1) <;> rfl
  | ldBVx x =>
    simp only [exec, execLdBVx, State.memWrite_withUnread, State.withUnread_i, State.getV_withUnread]
    cases s.memWrite s.i.toNat (bcdDigits (s.getV x)) <;> rfl
  | ldMemVx x =>
    simp only [exec, execLdMemVx, State.memWrite_withUnread, State.withUnread_i, State.regsUpTo_withUnread]
    cases s.memWrite s.i.toNat (s.regsUpTo x) <;> rfl
  | ldVxK x => exact congrArg _ (waitKey_withUnread stack b params.keySelect x s)
  | _ => rfl

end Unread

/-- A Step does the same whatever ST and the stack hold and keeps both, unless it runs CALL, RET or the load of ST. -/
theorem step_withUnread {s t : State} (h : step s = .next t) (stack : Vector Word 16) (b : Byte) :
    (step (s.withUnread stack b) = .next (t.withUnread stack b) ∧ t.stack = s.stack ∧ t.st = s.st) ∨
    ∃ i, usesStackOrST i ∧ exec i s.advance = .next t ∧
      step (s.withUnread stack b) = exec i (s.advance.withUnread stack b) := by
  have hfetch := s.fetch_withUnread stack b
  rcases step_cases h with ⟨hstop, rfl⟩ | ⟨hrun, hf, rfl⟩ | ⟨op, e, hrun, hf, hd, rfl⟩ | ⟨op, i, hrun, hf, hd, hexec⟩
  · exact .inl ⟨step_of_stopped hstop, rfl, rfl⟩
  · exact .inl ⟨step_of_no_fetch hrun (hfetch.trans hf), rfl, rfl⟩
  · exact .inl ⟨step_of_illegal hrun (hfetch.trans hf) hd, rfl, rfl⟩
  · have hstep : step (s.withUnread stack b) = exec i (s.advance.withUnread stack b) :=
      step_of_decode hrun (hfetch.trans hf) hd
    by_cases hi : usesStackOrST i
    · exact .inr ⟨i, hi, hexec, hstep⟩
    · refine .inl ⟨?_, ?_, ?_⟩
      · rw [hstep, exec_withUnread stack b hi, hexec, mapNext]
      · exact (exec_writes hexec).stack.resolve_right fun ⟨hcall, _⟩ => hi (.inr (.inl hcall))
      · exact (exec_writes hexec).st.resolve_right fun hst => hi (.inr (.inr hst))

/-! ### CALL and RET, by SP (41_control_flow R101, R104) -/

theorem exec_ret_of_zero {s : State} (h0 : s.sp = 0#16) : exec .ret s = .next (s.raiseIn .stackUnderflow .ret) := by
  simp only [exec, execRet, if_pos h0]

theorem exec_ret_of_pos {s : State} (h0 : s.sp ≠ 0#16) (hk : s.sp.toNat - 1 < 16) :
    exec .ret s = .next ((s.setSP (s.sp - 1#16)).setPC s.stack[s.sp.toNat - 1]) := by
  simp only [exec, execRet, if_neg h0, dif_pos hk]

theorem sp_of_exec_ret {s t : State} (h0 : s.sp ≠ 0#16) (h : exec .ret s = .next t) : s.sp.toNat - 1 < 16 := by
  by_contra hk
  simp only [exec, execRet, if_neg h0, dif_neg hk] at h
  cases h

theorem exec_call_of_lt {s : State} (nnn : Addr12) (hk : s.sp.toNat < 16) :
    exec (.call nnn) s =
      .next (((s.setStack ⟨s.sp.toNat, hk⟩ s.pc).setSP (s.sp + 1#16)).setPC (zext16 nnn)) := by
  simp only [exec, execCall, dif_pos hk]

theorem exec_call_of_full {s : State} (nnn : Addr12) (hk : ¬ s.sp.toNat < 16) :
    exec (.call nnn) s = .next (s.raiseIn .stackOverflow (.call nnn)) := by
  simp only [exec, execCall, dif_neg hk]

/-! ### ST is never read (10_state R27) -/

/-- CALL and RET keep another ST, and the load of ST overwrites it. -/
theorem exec_setST_of_usesStackOrST {i : Instr} (hi : usesStackOrST i) {s t : State} (b : Byte)
    (h : exec i s = .next t) : ∃ b', exec i (s.setST b) = .next (t.setST b') := by
  rcases hi with rfl | ⟨nnn, rfl⟩ | ⟨x, rfl⟩
  · by_cases h0 : s.sp = 0#16
    · rw [exec_ret_of_zero h0] at h
      cases h
      exact ⟨b, exec_ret_of_zero (s := s.setST b) h0⟩
    · have hk := sp_of_exec_ret h0 h
      rw [exec_ret_of_pos h0 hk] at h
      cases h
      exact ⟨b, exec_ret_of_pos (s := s.setST b) h0 hk⟩
  · by_cases hk : s.sp.toNat < 16
    · rw [exec_call_of_lt nnn hk] at h
      cases h
      exact ⟨b, exec_call_of_lt (s := s.setST b) nnn hk⟩
    · rw [exec_call_of_full nnn hk] at h
      cases h
      exact ⟨b, exec_call_of_full (s := s.setST b) nnn hk⟩
  · cases h
    exact ⟨_, rfl⟩

/-- Settles O54: every instruction but the load of ST does the same whatever ST holds. -/
theorem soundTimerIsNeverRead : Obligations.SoundTimerIsNeverRead := by
  intro s t b h
  rcases step_withUnread h s.stack b with ⟨hstep, hstack, -⟩ | ⟨i, hi, hexec, hstep⟩
  · have ht : t.withUnread s.stack b = t.setST b := by rw [← hstack]; rfl
    exact ⟨b, hstep.trans (congrArg Host.Outcome.next ht)⟩
  · obtain ⟨b', hb'⟩ := exec_setST_of_usesStackOrST hi b hexec
    exact ⟨b', hstep.trans hb'⟩

/-! ### A stack entry at or above SP is dead (10_state R25, D29) -/

/-- A write to the stack after another: the first is overwritten or keeps its entry. -/
theorem State.setStack_setStack (s : State) (j k : Fin 16) (v w : Word) :
    (s.setStack k w).setStack j v = (s.setStack j v).setStack k (if j = k then v else w) := by
  unfold State.setStack
  split
  next heq => simp [heq]
  next hne => simp [Vector.set_comm _ _ (Fin.val_ne_of_ne (Ne.symm hne))]

/-- RET pops below SP, CALL overwrites entry SP, and the load of ST keeps the stack. -/
theorem exec_setStack_of_usesStackOrST {i : Instr} (hi : usesStackOrST i) {s t : State} {k : Fin 16} (w : Word)
    (hk : s.sp.toNat ≤ k.val) (h : exec i s = .next t) :
    ∃ w', exec i (s.setStack k w) = .next (t.setStack k w') := by
  rcases hi with rfl | ⟨nnn, rfl⟩ | ⟨x, rfl⟩
  · by_cases h0 : s.sp = 0#16
    · rw [exec_ret_of_zero h0] at h
      cases h
      exact ⟨w, exec_ret_of_zero (s := s.setStack k w) h0⟩
    · have hlt := sp_of_exec_ret h0 h
      have hpos : s.sp.toNat ≠ 0 := fun hz => h0 (BitVec.eq_of_toNat_eq hz)
      have hentry : (s.setStack k w).stack[s.sp.toNat - 1] = s.stack[s.sp.toNat - 1] :=
        Vector.getElem_set_ne k.isLt _ (by omega)
      rw [exec_ret_of_pos h0 hlt, ← hentry] at h
      cases h
      exact ⟨w, exec_ret_of_pos (s := s.setStack k w) h0 hlt⟩
  · have hlt : s.sp.toNat < 16 := by omega
    rw [exec_call_of_lt nnn hlt] at h
    cases h
    have hcall := exec_call_of_lt (s := s.setStack k w) nnn hlt
    rw [State.setStack_setStack] at hcall
    exact ⟨_, hcall⟩
  · cases h
    exact ⟨w, rfl⟩

/-- Settles O55: only CALL and RET use the stack, and neither reads an entry at or above SP. -/
theorem deadStackEntriesAreNeverRead : Obligations.DeadStackEntriesAreNeverRead := by
  intro s t k w hk h
  rcases step_withUnread h (s.stack.set k.val w) s.st with ⟨hstep, hstack, hst⟩ | ⟨i, hi, hexec, hstep⟩
  · have ht : t.withUnread (s.stack.set k.val w) s.st = t.setStack k w := by rw [← hstack, ← hst]; rfl
    exact ⟨w, hstep.trans (congrArg Host.Outcome.next ht)⟩
  · obtain ⟨w', hw'⟩ := exec_setStack_of_usesStackOrST hi (s := s.advance) w hk hexec
    exact ⟨w', hstep.trans hw'⟩

/-! ### A stopped machine (10_state R31) -/

theorem State.changesOnly_keySet (s : State) (k : Key) : s.changesOnly (s.keySet k) (· = .key k) :=
  s.changesOnly_setKeys _ _ fun j hj => by
    have hne : j.val ≠ k.val := fun heq => hj (congrArg Comp.key (Fin.ext heq))
    simp [State.keyDown, hne]

theorem State.changesOnly_keyClear (s : State) (k : Key) : s.changesOnly (s.keyClear k) (· = .key k) :=
  s.changesOnly_setKeys _ _ fun j hj => by
    have hne : j.val ≠ k.val := fun heq => hj (congrArg Comp.key (Fin.ext heq))
    simp [State.keyDown, hne]

/-- A stopped machine leaves its run state only by Reset: LoadROM, Step and Tick need a running one, and key events do
not write run (60_exceptions R178, R190). -/
theorem run_of_applyEvent_of_stopped {s t : State} {e : Event} (hs : s.run ≠ .running) (h : applyEvent e s = .next t) :
    t.run = s.run ∨ e = .reset := by
  cases e with
  | reset => exact .inr rfl
  | loadRom bytes =>
    simp only [applyEvent, State.loadRom] at h
    split at h
    · cases h
    · split at h
      next hreset => exact absurd (State.run_of_justReset hreset) hs
      next => cases h
  | step =>
    rw [applyEvent, step_of_stopped hs] at h
    cases h
    exact .inl rfl
  | tick =>
    rw [applyEvent, s.tick_of_stopped hs] at h
    cases h
    exact .inl rfl
  | keySet k => cases h; exact .inl rfl
  | keyClear k => cases h; exact .inl rfl

/-- Settles O11: Step and Tick test run first, and a key event writes its latch bit alone. -/
theorem stoppedMachineIsFrozen : Obligations.StoppedMachineIsFrozen := by
  intro s hs
  refine ⟨step_of_stopped hs, congrArg Host.Outcome.next (s.tick_of_stopped hs),
    fun e t h => run_of_applyEvent_of_stopped hs h, fun k t h => ?_⟩
  rcases h with h | h
  · cases h; exact s.changesOnly_keySet k
  · cases h; exact s.changesOnly_keyClear k

end Sys2Proof.Machine

/-! ## Memory accesses (20_memory R50 to R62) -/

namespace Sys2Proof.Machine

open Claims

/-! ### Fetch -/

/-- A raise that records the PC it stands at moves nothing but run (60_exceptions R177). -/
theorem State.changesOnly_raise_pc (s : State) (k : FaultKind) (w : Option Word) :
    s.changesOnly (s.raise k s.pc w) (· = .run) := s.changesOnly_setRun _

theorem State.fetch_of_lt {s : State} (h : s.pc.toNat + 1 < params.memSize) :
    s.fetch = some (wordOfBytes (s.mem.read s.pc.toNat) (s.mem.read (s.pc.toNat + 1))) := by
  rw [s.fetch_eq, if_pos h]

/-- Settles O9: a fetch below the bound is the two bytes at PC, and one past it is the fetch fault. -/
theorem fetchIsBigEndianAndBounded : Obligations.FetchIsBigEndianAndBounded := by
  intro s
  have hbound : s.pc.toNat ≤ 4093 ↔ s.pc.toNat + 1 < params.memSize := by rw [params_memSize]; omega
  exact ⟨fun hpc => ⟨_, State.fetch_of_lt (hbound.1 hpc), toNat_wordOfBytes _ _⟩, State.fetch_eq_none_iff.2, hbound,
    fun hrun hpc => ⟨_, step_of_no_fetch hrun (State.fetch_eq_none_iff.2 hpc), rfl, s.changesOnly_raise_pc _ _⟩⟩

/-! ### MemRead and MemWrite -/

/-- An access whose last byte exists is in bounds (20_memory R52). -/
theorem inBounds_of_last_lt {a n : Nat} (h : a + n - 1 < params.memSize) : inBounds a n = true := by
  rw [inBounds, decide_eq_true h, Bool.or_true]

/-- The bytes read from a on, ascending (20_memory R52). -/
theorem Memory.readAll_eq_map (m : Memory) (a n : Nat) :
    m.readAll a n = (List.range n).map fun k => m.read (a + k) := by
  induction n generalizing a with
  | zero => rfl
  | succ n ih =>
    have hshift : ∀ k, a + 1 + k = a + (k + 1) := fun k => by omega
    rw [Memory.readAll, ih, List.range_succ_eq_map, List.map_cons, List.map_map]
    simp only [hshift, Function.comp_def, Nat.add_zero, Nat.succ_eq_add_one]

/-- The k-th byte written from a on is what a + k then reads (20_memory R52). -/
theorem Memory.read_writeAll_add {m : Memory} (hm : m.wf) {a k : Nat} {vs : List Byte}
    (hb : inBounds a vs.length = true) (hk : k < vs.length) : (m.writeAll a vs).read (a + k) = vs.getD k 0 := by
  rw [Memory.read_writeAll hm hb, if_pos ⟨Nat.le_add_right a k, Nat.add_lt_add_left hk a⟩, Nat.add_sub_cancel_left]

/-- A write of bytes from a on changes those addresses and nothing else (20_memory R52). -/
theorem State.changesOnly_writeAll {s : State} (hm : s.mem.wf) {a : Nat} {vs : List Byte}
    (hb : inBounds a vs.length = true) :
    s.changesOnly (s.setMem (s.mem.writeAll a vs)) (fun c => ∃ k, k < vs.length ∧ c = .mem (a + k)) :=
  s.changesOnly_setMem _ _ fun b hout => by
    have hnot : ¬ (a ≤ b ∧ b < a + vs.length) := fun ⟨hle, hlt⟩ =>
      hout ⟨b - a, Nat.sub_lt_left_of_lt_add hle hlt, by rw [Nat.add_sub_cancel' hle]⟩
    rw [Memory.read_writeAll hm hb, if_neg hnot]

/-- Settles O24: both primitives check the last address of the range before any effect. -/
theorem memoryPrimitives : Obligations.MemoryPrimitives := by
  intro s a bytes hm hne
  refine ⟨fun hout => ?_, fun hin => ?_⟩
  · have hraise := And.intro (List.length_pos_of_ne_nil hne) hout
    exact ⟨State.memWrite_eq_none_iff.2 hraise, State.memRead_eq_none_iff.2 hraise⟩
  · have hb := inBounds_of_last_lt hin
    have hread : s.memRead a bytes.length = some (s.mem.readAll a bytes.length) := if_pos hb
    exact ⟨by rw [hread, Memory.readAll_eq_map], _, if_pos hb, fun k hk => Memory.read_writeAll_add hm hb hk,
      State.changesOnly_writeAll hm hb⟩

/-! ### A dump seen by the next fetch -/

/-- The registers to dump fit when the last of them does (43_index_memory R144). -/
theorem inBounds_regsUpTo {s : State} {x : Reg} (hx : s.i.toNat + x.val < params.memSize) :
    inBounds s.i.toNat (s.regsUpTo x).length = true := by
  rw [State.length_regsUpTo]
  exact inBounds_of_last_lt hx

/-- A dump that fits writes the registers at I and moves I past them (43_index_memory R144). -/
theorem exec_ldMemVx_of_lt {s : State} {x : Reg} (hx : s.i.toNat + x.val < params.memSize) :
    exec (.ldMemVx x) s = .next (bumpI (s.setMem (s.mem.writeAll s.i.toNat (s.regsUpTo x))) x) := by
  simp only [exec, execLdMemVx, State.memWrite, if_pos (inBounds_regsUpTo hx)]

/-- After a dump, address I + k holds V[k] (43_index_memory R144). -/
theorem read_writeAll_regsUpTo {s : State} {x k : Reg} (hm : s.mem.wf) (hx : s.i.toNat + x.val < params.memSize)
    (hk : k ≤ x) : (s.mem.writeAll s.i.toNat (s.regsUpTo x)).read (s.i.toNat + k.val) = s.getV k := by
  have hlen : k.val < (s.regsUpTo x).length := by
    rw [State.length_regsUpTo]
    exact Nat.lt_succ_of_le hk
  rw [Memory.read_writeAll_add hm (inBounds_regsUpTo hx) hlen, s.getD_regsUpTo x k hk]

/-- Settles O26: the two addresses fetched hold the two registers dumped. -/
theorem storedBytesAreFetched : Obligations.StoredBytesAreFetched := by
  intro s x k k' hm hsucc hk' hx
  refine ⟨_, exec_ldMemVx_of_lt hx, ?_⟩
  have hk'x : k'.val ≤ x.val := hk'
  have hk : k ≤ x := Fin.le_def.2 (by omega)
  have hlast : s.i.toNat + k.val + 1 = s.i.toNat + k'.val := by omega
  have hpc : (word (s.i.toNat + k.val)).toNat = s.i.toNat + k.val := by
    rw [params_memSize] at hx
    rw [BitVec.toNat_ofNat, Nat.mod_eq_of_lt (by omega)]
  rw [State.fetch_of_lt]
  · simp only [State.setPC_pc, State.setPC_mem, bumpI, State.setI_mem, State.setMem_mem, hpc, hlast,
      read_writeAll_regsUpTo hm hx hk, read_writeAll_regsUpTo hm hx hk', wordOfBytes_eq]
  · rw [State.setPC_pc, hpc]
    omega

end Sys2Proof.Machine

/-! ## The encoder inverts the decoder (30_encoding R70 to R86) -/

namespace Sys2Proof

open Claims

/-! ### Well-formedness (30_encoding R75) -/

theorem Instr.wf_sys_iff {nnn : Addr12} : (Instr.sys nnn).wf = true ↔ nnn ≠ 0x0E0 ∧ nnn ≠ 0x0EE ∧ nnn ≠ 0x0FD := by
  simp [Instr.wf, Instr.wfWith, and_assoc]

/-- SYS alone can fail to be well-formed. -/
theorem Instr.wf_of_ne_sys {i : Instr} (h : ∀ nnn, i ≠ .sys nnn) : i.wf = true := by
  cases i with
  | sys nnn => exact absurd rfl (h nnn)
  | _ => rfl

/-! ### The catch-all row (30_encoding R74, R75) -/

/-- The words of family 0: three named ones, and SYS. -/
theorem decode_formatNNN_zero (nnn : Addr12) :
    decode (formatNNN 0 nnn) =
      if nnn = 0x0E0 then .ok .cls else if nnn = 0x0EE then .ok .ret else if nnn = 0x0FD then .ok .exit
      else .ok (.sys nnn) := by
  have hop : (formatNNN 0 nnn).toNat = 4096 * 0 + nnn.toNat := toNat_formatNNN (by decide) nnn
  have hfield : fieldNNN (formatNNN 0 nnn) = nnn := fieldNNN_of hop
  have hfamily : nnn.toNat / 4096 = 0 := Nat.div_eq_of_lt nnn.isLt
  rw [Nat.mul_zero, Nat.zero_add] at hop
  simp only [decode_eq, hop, hfield, hfamily, ← BitVec.toNat_inj]
  rfl

theorem encode_sys (nnn : Addr12) : encode (.sys nnn) = formatNNN 0 nnn := rfl

theorem decode_encode_sys {nnn : Addr12} (h : (Instr.sys nnn).wf = true) :
    decode (encode (.sys nnn)) = .ok (.sys nnn) := by
  obtain ⟨hcls, hret, hexit⟩ := Instr.wf_sys_iff.1 h
  rw [encode_sys, decode_formatNNN_zero, if_neg hcls, if_neg hret, if_neg hexit]

/-- What a word decodes to is well-formed: at the three named words the catch-all has no turn. -/
theorem wf_of_decode {op : Word} {i : Instr} (h : decode op = .ok i) : i.wf = true := by
  by_cases hsys : ∃ nnn, i = .sys nnn
  · obtain ⟨nnn, rfl⟩ := hsys
    rw [← encode_of_decode h, encode_sys, decode_formatNNN_zero] at h
    refine Instr.wf_sys_iff.2 ⟨?_, ?_, ?_⟩ <;> rintro rfl <;> cases h
  · exact Instr.wf_of_ne_sys fun nnn hi => hsys ⟨nnn, hi⟩

/-- Settles O5: each row of the map loses no bit, and the rows before the catch-all take the three named words. -/
theorem encodeOfDecode : Obligations.EncodeOfDecode := fun _ _ h => ⟨wf_of_decode h, encode_of_decode h⟩

/-! ### The other rows exclude each other (30_encoding R74) -/

/-- The fixed bits the two rows share differ, so that no word selects both. -/
abbrev OpcodeRow.Clashes (r r' : OpcodeRow) : Prop := r.value &&& r'.mask ≠ r'.value &&& r.mask

theorem OpcodeRow.Clashes.not_selects {r r' : OpcodeRow} (h : r.Clashes r') {op : Word} (hr' : r'.selects op = true) :
    r.selects op = false := by
  refine Bool.eq_false_iff.2 fun hr => h ?_
  rw [← eq_of_beq hr, ← eq_of_beq hr', BitVec.and_assoc, BitVec.and_assoc, BitVec.and_comm r'.mask]

/-- The rows exclude each other, but for the catch-all, whose value is 0 (30_encoding R74, R75). -/
theorem pairwise_clashes_opcodeMap : (opcodeMap true).Pairwise fun r r' => r'.value ≠ 0 → r.Clashes r' := by
  decide

/-- A row other than the catch-all decides alone the words it selects. -/
theorem decode_of_row {r : OpcodeRow} {op : Word} (hr : r ∈ opcodeMap true) (hv : r.value ≠ 0)
    (hsel : r.selects op = true) : decode op = .ok (r.build op) := by
  obtain ⟨before, after, hmap⟩ := List.append_of_mem hr
  have hpairs := pairwise_clashes_opcodeMap
  rw [hmap, List.pairwise_append] at hpairs
  obtain ⟨-, -, hclash⟩ := hpairs
  have hfirst : (opcodeMap true).find? (fun r => r.selects op) = some r := by
    refine List.find?_eq_some_iff_append.2 ⟨hsel, before, after, hmap, fun r' hr' => ?_⟩
    rw [(hclash r' hr' r List.mem_cons_self hv).not_selects hsel, Bool.not_false]
  simp only [decode, decodeWith, hfirst]

/-- The catch-all is the one row of value 0. -/
theorem build_of_value_eq_zero : ∀ r ∈ opcodeMap true, r.value = 0 → ∀ op, r.build op = .sys (fieldNNN op) := by
  simp [opcodeMap, rowsFamily0, rowsFamily1to7, rowsFamily8, rowsFamily9toD, rowsFamilyE, rowsFamilyF]

open Laws.RowBuildsBack in
/-- The rows' facts about each instruction, for all of them. -/
theorem row_builds_back (i : Instr) : Laws.RowBuildsBack.Statement i := by
  cases i with
  | cls => exact cls
  | ret => exact ret
  | exit => exact exit
  | sys nnn => exact sys nnn
  | jp nnn => exact jp nnn
  | call nnn => exact call nnn
  | seByte x kk => exact seByte x kk
  | sneByte x kk => exact sneByte x kk
  | seReg x y => exact seReg x y
  | ldByte x kk => exact ldByte x kk
  | addByte x kk => exact addByte x kk
  | ldReg x y => exact ldReg x y
  | orReg x y => exact orReg x y
  | andReg x y => exact andReg x y
  | xorReg x y => exact xorReg x y
  | addReg x y => exact addReg x y
  | subReg x y => exact subReg x y
  | shr x y => exact shr x y
  | subnReg x y => exact subnReg x y
  | shl x y => exact shl x y
  | sneReg x y => exact sneReg x y
  | ldI nnn => exact ldI nnn
  | jpV0 nnn => exact jpV0 nnn
  | rnd x kk => exact rnd x kk
  | drw x y n => exact drw x y n
  | skp x => exact skp x
  | sknp x => exact sknp x
  | ldVxDT x => exact ldVxDT x
  | ldVxK x => exact ldVxK x
  | ldDTVx x => exact ldDTVx x
  | ldSTVx x => exact ldSTVx x
  | addIVx x => exact addIVx x
  | ldFVx x => exact ldFVx x
  | ldBVx x => exact ldBVx x
  | ldMemVx x => exact ldMemVx x
  | ldVxMem x => exact ldVxMem x

/-- Settles O4: a row builds the instruction back, and no row before it selects its word. -/
theorem decodeOfEncode : Obligations.DecodeOfEncode := by
  intro i hwf
  obtain ⟨row, hmem, hsel, hbuild⟩ := row_builds_back i
  by_cases hv : row.value = 0
  · obtain ⟨nnn, rfl⟩ : ∃ nnn, i = .sys nnn := ⟨_, hbuild.symm.trans (build_of_value_eq_zero row hmem hv _)⟩
    exact decode_encode_sys hwf
  · rw [decode_of_row hmem hv hsel, hbuild]

/-- The decoder's answers, by the encoder (30_encoding R74). -/
theorem decode_eq_ok_iff {op : Word} {i : Instr} : decode op = .ok i ↔ i.wf = true ∧ encode i = op :=
  ⟨encodeOfDecode op i, fun ⟨hwf, henc⟩ => henc ▸ decodeOfEncode i hwf⟩

/-- Settles O6: the bytes of a word put it together again, and the decoder reads one word. -/
theorem bytesOfInstructionDecode : Obligations.BytesOfInstructionDecode := by
  intro i rest hwf
  have hword := Machine.wordOfBytes_bytesOfWord (encode i)
  refine ⟨_, _, rfl, by rw [← Machine.toNat_wordOfBytes, hword], ?_⟩
  simp only [decodeBytes, hword, decodeOfEncode i hwf]

/-! ### Illegal words (30_encoding R80) -/

/-- A word is illegal by its family and its low byte. -/
theorem illegalByTable_congr {a b : Nat} (hfamily : a / 4096 = b / 4096) (hlow : a % 256 = b % 256) :
    illegalByTable a = illegalByTable b := by
  have hn : a % 16 = b % 16 := by omega
  simp only [illegalByTable, hfamily, hlow, hn]

/-- A branch that decodes is not the refused one. -/
@[simp] theorem exists_ite_ok_eq_error {c : Prop} [Decidable c] {i : Instr} {r : Except DecodeError Instr} :
    (∃ e, (if c then .ok i else r) = .error e) ↔ ¬ c ∧ ∃ e, r = .error e := by
  split <;> simp [*]

/-- The decoder refuses the words of the table and no other: family by family, and in family 8 by n. -/
theorem decode_isError_iff (op : Word) : (∃ e, decode op = .error e) ↔ illegalByTable op.toNat = true := by
  have hp : op.toNat / 4096 < 16 := by have := op.isLt; omega
  have hn : op.toNat % 16 < 16 := Nat.mod_lt _ (by decide)
  by_cases hnamed : op.toNat = 0x00E0 ∨ op.toNat = 0x00EE ∨ op.toNat = 0x00FD
  · rcases hnamed with h | h | h <;> simp [decode_eq, illegalByTable, h]
  · obtain ⟨hcls, hret, hexit⟩ := not_or.1 hnamed |>.imp_right not_or.1
    simp only [decode_eq, illegalByTable, hcls, hret, hexit, if_false]
    generalize op.toNat / 4096 = p at hp ⊢
    generalize op.toNat % 16 = n at hn ⊢
    obtain hbelow | rfl | habove := lt_trichotomy p 8
    · interval_cases p <;> simp
    · interval_cases n <;> simp
    · interval_cases p <;> simp

/-- A count over a range by blocks of n. -/
theorem countP_range_mul (f : Nat → Bool) (m n : Nat) :
    (List.range (m * n)).countP f = ((List.range m).map fun y => (List.range n).countP fun k => f (n * y + k)).sum := by
  induction m with
  | zero => simp
  | succ m ih => simp [Nat.succ_mul, List.range_add, List.range_succ, ih, Nat.mul_comm n, Function.comp_def]

/-- The column of counts of 30_encoding R80, the low bytes of a family taken y by y. -/
theorem count_illegalByTable : ∀ p < 16, 16 * ((List.range 256).countP fun kk => illegalByTable (4096 * p + kk)) =
    if p = 5 then 3840 else if p = 8 then 1792 else if p = 9 then 3840 else if p = 0xE then 4064
    else if p = 0xF then 3952 else 0 := by
  rw [show 256 = 16 * 16 from rfl]
  simp only [countP_range_mul]
  decide

/-- A Step that fetches a word of the table enters UnknownOpcode (60_exceptions R171). -/
theorem step_of_illegalByTable {s : Machine.State} {op : Word} (hrun : s.run = .running) (hf : s.fetch = some op)
    (h : illegalByTable op.toNat = true) : Machine.step s = .next (s.decodeFault op) := by
  obtain ⟨e, he⟩ := (decode_isError_iff op).2 h
  exact Machine.step_of_illegal hrun hf he

/-- Settles O2: the decoder family by family, the table's counts by its low bytes, and the decode fault of a Step. -/
theorem illegalWordsAreTheTableAndFault : Obligations.IllegalWordsAreTheTableAndFault :=
  ⟨decode_isError_iff, fun p x kk _ _ _ => illegalByTable_congr (by omega) (by omega), count_illegalByTable, rfl, rfl,
    fun s op hrun hf h => ⟨s.decodeFault op, step_of_illegalByTable hrun hf h, rfl, s.changesOnly_raise_pc _ _⟩⟩

/-! ### The secondary dispatch (30_encoding R75 to R79) -/

/-- The three named words are of family 0 (30_encoding R75). -/
theorem not_named_of_family {op : Word} {p : Nat} (h : op.toNat / 4096 = p) (hp : 0 < p) :
    op.toNat ≠ 0x00E0 ∧ op.toNat ≠ 0x00EE ∧ op.toNat ≠ 0x00FD := by
  omega

theorem fields_formatXYN {p : Nat} (hp : p < 16) (x y n : Fin 16) :
    (formatXYN p x y n).toNat / 4096 = p ∧ fieldX (formatXYN p x y n) = x ∧ fieldY (formatXYN p x y n) = y ∧
      (formatXYN p x y n).toNat % 16 = n := by
  have hop := toNat_formatXYN hp n.isLt x y
  exact ⟨by omega, fieldX_of (p := p) (r := 16 * y + n) (by omega) (by omega), fieldY_of hop n.isLt, by omega⟩

theorem fields_formatXKK {p : Nat} (hp : p < 16) (x : Reg) (kk : Byte) :
    (formatXKK p x kk).toNat / 4096 = p ∧ fieldX (formatXKK p x kk) = x ∧ (formatXKK p x kk).toNat % 256 = kk.toNat := by
  have hop := toNat_formatXKK hp x kk
  exact ⟨by omega, fieldX_of hop kk.isLt, by omega⟩

theorem decode_family5 (x y n : Fin 16) :
    decode (formatXYN 5 x y n) = if n = 0 then .ok (.seReg x y) else .error (.illegal5 (formatXYN 5 x y n)) := by
  obtain ⟨hp, hx, hy, hn⟩ := fields_formatXYN (p := 5) (by decide) x y n
  obtain ⟨hcls, hret, hexit⟩ := not_named_of_family hp (by decide)
  simp only [decode_eq, hcls, hret, hexit, if_false, hp, hx, hy, hn, Fin.ext_iff]
  rfl

theorem decode_family8 (x y n : Fin 16) :
    decode (formatXYN 8 x y n) =
      if n = 0 then .ok (.ldReg x y) else if n = 1 then .ok (.orReg x y) else if n = 2 then .ok (.andReg x y)
      else if n = 3 then .ok (.xorReg x y) else if n = 4 then .ok (.addReg x y) else if n = 5 then .ok (.subReg x y)
      else if n = 6 then .ok (.shr x y) else if n = 7 then .ok (.subnReg x y) else if n = 0xE then .ok (.shl x y)
      else .error (.illegal8 (formatXYN 8 x y n)) := by
  obtain ⟨hp, hx, hy, hn⟩ := fields_formatXYN (p := 8) (by decide) x y n
  obtain ⟨hcls, hret, hexit⟩ := not_named_of_family hp (by decide)
  simp only [decode_eq, hcls, hret, hexit, if_false, hp, hx, hy, hn]
  fin_cases n <;> rfl

theorem decode_family9 (x y n : Fin 16) :
    decode (formatXYN 9 x y n) = if n = 0 then .ok (.sneReg x y) else .error (.illegal9 (formatXYN 9 x y n)) := by
  obtain ⟨hp, hx, hy, hn⟩ := fields_formatXYN (p := 9) (by decide) x y n
  obtain ⟨hcls, hret, hexit⟩ := not_named_of_family hp (by decide)
  simp only [decode_eq, hcls, hret, hexit, if_false, hp, hx, hy, hn, Fin.ext_iff]
  rfl

theorem decode_familyE (x : Reg) (kk : Byte) :
    decode (formatXKK 0xE x kk) =
      if kk = 0x9E then .ok (.skp x) else if kk = 0xA1 then .ok (.sknp x)
      else .error (.illegalE (formatXKK 0xE x kk)) := by
  obtain ⟨hp, hx, hkk⟩ := fields_formatXKK (p := 0xE) (by decide) x kk
  obtain ⟨hcls, hret, hexit⟩ := not_named_of_family hp (by decide)
  simp only [decode_eq, hcls, hret, hexit, if_false, hp, hx, hkk, ← BitVec.toNat_inj]
  rfl

theorem decode_familyF (x : Reg) (kk : Byte) :
    decode (formatXKK 0xF x kk) =
      if kk = 0x07 then .ok (.ldVxDT x) else if kk = 0x0A then .ok (.ldVxK x) else if kk = 0x15 then .ok (.ldDTVx x)
      else if kk = 0x18 then .ok (.ldSTVx x) else if kk = 0x1E then .ok (.addIVx x) else if kk = 0x29 then .ok (.ldFVx x)
      else if kk = 0x33 then .ok (.ldBVx x) else if kk = 0x55 then .ok (.ldMemVx x)
      else if kk = 0x65 then .ok (.ldVxMem x) else .error (.illegalF (formatXKK 0xF x kk)) := by
  obtain ⟨hp, hx, hkk⟩ := fields_formatXKK (p := 0xF) (by decide) x kk
  obtain ⟨hcls, hret, hexit⟩ := not_named_of_family hp (by decide)
  simp only [decode_eq, hcls, hret, hexit, if_false, hp, hx, hkk, ← BitVec.toNat_inj]
  rfl

theorem word_toNat_eq_formatNNN (nnn : Addr12) : word nnn.toNat = formatNNN 0 nnn := by
  rw [formatNNN, Nat.mul_zero, Nat.zero_add]

/-- Settles O3: the words with free fields are words of the formats, and each family dispatches on its own field. -/
theorem familiesSubDispatch : Obligations.FamiliesSubDispatch :=
  ⟨fun nnn => word_toNat_eq_formatNNN nnn ▸ decode_formatNNN_zero nnn, fun _ _ => rfl, decode_family8, decode_familyE,
    decode_familyF, decode_family5, decode_family9⟩

/-- Settles O1: fixed words, each run through the decoder. -/
theorem sampleWordsDecode : Obligations.SampleWordsDecode := by
  unfold Obligations.SampleWordsDecode
  decide

end Sys2Proof

/-! ## Assembling what the disassembler writes (30_encoding R84) -/

namespace Sys2Proof.Machine

@[simp] theorem byteOperand_toNat (b : Byte) : byteOperand b.toNat = some b := by
  rw [byteOperand, if_pos b.isLt, BitVec.ofNat_toNat, BitVec.setWidth_eq]

@[simp] theorem addrOperand_toNat (a : Addr12) : addrOperand a.toNat = some a := by
  rw [addrOperand, if_pos a.isLt, BitVec.ofNat_toNat, BitVec.setWidth_eq]

@[simp] theorem nibbleOperand_val (n : Fin 16) : nibbleOperand n.val = some n := dif_pos n.isLt

/-- The instruction read is the one written, the y of a shift too, which is not written when it is 0. -/
theorem readInstr_disassemble (i : Instr) : readInstr (disassemble i).1 (disassemble i).2 = some i := by
  cases i with
  | shr x y | shl x y =>
    simp only [disassemble]
    split
    next hy => rw [hy]; rfl
    next => rfl
  | _ => simp [disassemble, readInstr]

/-- Settles O7: what the disassembler writes reads back, and the assembler refuses no well-formed instruction. -/
theorem assembleOfDisassemble : Obligations.AssembleOfDisassemble := by
  intro i hwf
  rw [assemble, readInstr_disassemble]
  exact if_pos hwf

end Sys2Proof.Machine

/-! ## The Step (40_step_cycle R90 to R97) -/

namespace Sys2Proof.Machine

/-- Settles O10: a fetch below the bound answers the two bytes at PC, and the decoded instruction is all the Step runs. -/
theorem stepRunsTheDecodedInstruction : Obligations.StepRunsTheDecodedInstruction := by
  rintro s b0 b1 i hrun hpc rfl rfl hd
  refine step_of_decode hrun (State.fetch_of_lt hpc) ?_
  rw [wordOfBytes_eq]
  exact hd

/-- A Step that faults raises at its own PC with the word fetched, for a cause that held before it, whichever of fetch,
decode and execute it faults in (40_step_cycle R96, 60_exceptions R170). -/
theorem raise_of_step_faulted {s t : State} {k : FaultKind} {addr : Word} {w : Option Word} (hrun : s.run = .running)
    (h : step s = .next t) (ht : t.run = .faulted k addr w) : t = s.raise k s.pc s.fetch ∧ k.cause s s.fetch := by
  rcases step_cases h with ⟨hstop, -⟩ | ⟨-, hf, rfl⟩ | ⟨op, e, -, hf, hd, rfl⟩ | ⟨op, i, -, hf, hd, hexec⟩
  · exact absurd hrun hstop
  · cases ht
    rw [hf]
    exact ⟨rfl, State.fetch_eq_none_iff.1 hf⟩
  · cases ht
    rw [hf]
    exact ⟨rfl, e, hd⟩
  · rcases exec_run_cases hd hexec with hsame | ⟨-, rfl⟩ | ⟨k', rfl, hc⟩
    · have hrunning : t.run = .running := hsame.trans hrun
      rw [hrunning] at ht
      cases ht
    · cases ht
    · cases ht
      rw [hf, s.raiseIn_advance, encode_of_decode hd]
      exact ⟨rfl, (k.cause_congr (s := s) (t := s.advance) (some op) rfl rfl nofun).1 hc⟩

/-- Settles O12: the state after a faulting Step is the raise at PC, which writes run alone, and a Tick leaves a faulted
machine as it is. -/
theorem faultingStepIsPrecise : Obligations.FaultingStepIsPrecise := by
  intro s t k addr w hrun h ht
  have hstop : t.run ≠ .running := by rw [ht]; nofun
  obtain ⟨-, -, -, finishStep_of_stopped⟩ := timerPerStepSwitch
  obtain ⟨rfl, -⟩ := raise_of_step_faulted hrun h ht
  cases ht
  exact ⟨rfl, rfl, s.changesOnly_raise_pc _ _, finishStep_of_stopped _ hstop⟩

end Sys2Proof.Machine

/-! ## Control flow (41_control_flow R100 to R109) -/

namespace Sys2Proof.Machine

open Claims

/-! ### Frames, fetches and decoded instructions -/

/-- A change of one component is a change within any list that has it. -/
theorem State.changesOnly.mem {s t : State} {c : Comp} {cs : List Comp} (h : s.changesOnly t (· = c)) (hc : c ∈ cs) :
    s.changesOnly t (· ∈ cs) := h.mono fun _ heq => heq ▸ hc

/-- From the last address on there is no word to fetch, which is how a jump there ends (20_memory R53). -/
theorem State.fetch_setPC_eq_none (s : State) {w : Word} (h : params.memSize - 1 ≤ w.toNat) :
    (s.setPC w).fetch = none := State.fetch_eq_none_iff.2 (Nat.le_add_of_sub_le h)

/-- The next Step executes i exactly when it fetches the word of i. -/
theorem decodesTo_iff_fetch {s : State} {i : Instr} (hwf : i.wf = true) :
    decodesTo s i ↔ s.fetch = some (encode i) := by
  constructor
  · rintro ⟨op, hf, hd⟩
    rw [hf, encode_of_decode hd]
  · exact fun hf => ⟨encode i, hf, decodeOfEncode i hwf⟩

theorem step_of_decodesTo {s : State} {i : Instr} (hrun : s.run = .running) (hd : decodesTo s i) :
    step s = exec i s.advance := by
  obtain ⟨op, hf, hdec⟩ := hd
  exact step_of_decode hrun hf hdec

/-! ### SYS and EXIT (R100, R102) -/

/-- Settles O27: the catch-all row of family 0 has every word but the three named ones, and 00FD too without EXIT. -/
theorem sysDoesNothing : Obligations.SysDoesNothing := by
  obtain ⟨-, -, hnoExit, -⟩ := hasExitSwitch
  refine ⟨fun nnn hcls hret hexit => ?_, hnoExit, fun _ _ => rfl⟩
  rw [word_toNat_eq_formatNNN, ← encode_sys]
  exact decode_encode_sys (Instr.wf_sys_iff.2 ⟨hcls, hret, hexit⟩)

theorem exec_exit (s : State) : exec .exit s = .next (s.setRun .halted) := rfl

/-- Settles O29: EXIT writes run alone, and a halted machine does not step or tick. -/
theorem exitHaltsTheMachine : Obligations.ExitHaltsTheMachine := by
  refine ⟨decodeOfEncode .exit rfl, fun s => ?_⟩
  have hstop : (s.setRun .halted).run ≠ .running := nofun
  obtain ⟨-, -, -, finishStep_of_stopped⟩ := timerPerStepSwitch
  exact ⟨_, exec_exit s, rfl, s.changesOnly_setRun _, step_of_stopped hstop, State.tick_of_stopped _ hstop,
    finishStep_of_stopped _ hstop⟩

/-- Settles O14: a Step that leaves the machine halted has run EXIT, the one instruction of the word 00FD. -/
theorem onlyExitHalts : Obligations.OnlyExitHalts := by
  intro s t hrun h
  have hexit : decodesTo s .exit ↔ s.fetch = some 0x00FD#16 := decodesTo_iff_fetch rfl
  rw [← hexit]
  constructor
  · intro hhalt
    have hne : t.run ≠ s.run := by rw [hhalt, hrun]; nofun
    rcases writers_of_run h hne with ⟨hd, -⟩ | ⟨k, hfault⟩
    · exact hd
    · rw [hhalt] at hfault
      cases hfault
  · intro hd
    rw [step_of_decodesTo hrun hd, exec_exit] at h
    cases h
    rfl

/-! ### JP and JP V0 (R103, R109) -/

theorem exec_jp (nnn : Addr12) (s : State) : exec (.jp nnn) s = .next (s.setPC (zext16 nnn)) := rfl

theorem exec_jpV0 (nnn : Addr12) (s : State) :
    exec (.jpV0 nnn) s = .next (s.setPC (zext16 (s.getV 0) + zext16 nnn)) := rfl

/-- The target of Bnnn is the exact sum: it never reaches 65536 (R109). -/
theorem toNat_zext16_add (b : Byte) (a : Addr12) : (zext16 b + zext16 a).toNat = b.toNat + a.toNat := by
  have := b.isLt
  have := a.isLt
  rw [BitVec.toNat_add, toNat_zext16_byte, toNat_zext16_addr]
  omega

/-- A jump to the address of the instruction itself. -/
theorem State.advance_setPC_self (s : State) : s.advance.setPC s.pc = s := rfl

/-- Settles O30: both jumps write PC alone, and a jump to itself writes back the PC the Step began with. -/
theorem jumpsSetPC : Obligations.JumpsSetPC := by
  refine ⟨fun nnn => ⟨decodeOfEncode (.jp nnn) rfl, decodeOfEncode (.jpV0 nnn) rfl⟩, fun nnn s => ⟨?_, ?_⟩,
    fun nnn s hrun hpc hf => ?_⟩
  · have htarget := toNat_zext16_addr nnn
    exact ⟨_, exec_jp nnn s, htarget, fun h => s.fetch_setPC_eq_none (htarget ▸ h), s.changesOnly_setPC _⟩
  · have htarget := toNat_zext16_add (s.getV 0) nnn
    exact ⟨_, exec_jpV0 nnn s, htarget, fun h => s.fetch_setPC_eq_none (htarget ▸ h), s.changesOnly_setPC _⟩
  · have hself : zext16 nnn = s.pc := BitVec.eq_of_toNat_eq (by rw [toNat_zext16_addr, hpc])
    have hd : decodesTo s (.jp nnn) := (decodesTo_iff_fetch rfl).2 hf
    rw [step_of_decodesTo hrun hd, exec_jp, hself, s.advance_setPC_self]

/-! ### CALL and RET (R101, R104) -/

/-- CALL at a level that exists. -/
theorem exec_call_of_sp {s : State} (nnn : Addr12) {k : Fin 16} (hk : s.sp.toNat = k.val) :
    exec (.call nnn) s = .next (((s.setStack k s.pc).setSP (s.sp + 1#16)).setPC (zext16 nnn)) := by
  have hlt : s.sp.toNat < 16 := hk ▸ k.isLt
  obtain rfl : k = ⟨s.sp.toNat, hlt⟩ := Fin.ext hk.symm
  exact exec_call_of_lt nnn hlt

/-- RET to a level that exists. -/
theorem exec_ret_of_sp {s : State} {k : Fin 16} (hk : s.sp.toNat = k.val + 1) :
    exec .ret s = .next ((s.setSP (s.sp - 1#16)).setPC s.stack[k.val]) := by
  have h0 : s.sp ≠ 0#16 := fun hz => by simp [hz] at hk
  have hlevel : s.sp.toNat - 1 = k.val := by omega
  rw [exec_ret_of_pos h0 (hlevel ▸ k.isLt)]
  simp only [hlevel]

/-- CALL moves SP one level up. -/
theorem toNat_add_one_of_level {w : Word} {k : Fin 16} (hk : w.toNat = k.val) : (w + 1#16).toNat = k.val + 1 := by
  bv_omega

/-- RET moves SP one level down. -/
theorem toNat_sub_one_of_level {w : Word} {k : Fin 16} (hk : w.toNat = k.val + 1) : (w - 1#16).toNat = k.val := by
  bv_omega

/-- The entry a CALL pushes (R104). -/
theorem State.getElem_setStack_self (s : State) (k : Fin 16) (w : Word) : (s.setStack k w).stack[k.val] = w :=
  Vector.getElem_set_self k.isLt

/-- Settles O31: CALL at level k writes entry k, SP and PC, and above level 15 it raises. -/
theorem callPushesTheReturnAddress : Obligations.CallPushesTheReturnAddress := by
  refine ⟨fun nnn => decodeOfEncode (.call nnn) rfl, fun nnn s k hk => ?_, fun nnn s hfull => ?_⟩
  · have htarget := toNat_zext16_addr nnn
    refine ⟨_, exec_call_of_sp nnn hk, s.getElem_setStack_self k s.pc, toNat_add_one_of_level hk, htarget,
      fun h => State.fetch_setPC_eq_none _ (htarget ▸ h), ?_⟩
    have hstack := (s.changesOnly_setStack k s.pc).mem (cs := [.stack k, .sp, .pc]) (by simp)
    exact (hstack.trans ((State.changesOnly_setSP _ _).mem (by simp))).trans
      ((State.changesOnly_setPC _ _).mem (by simp))
  · exact ⟨_, exec_call_of_full nnn (Nat.not_lt.2 hfull), s.entersFault_raiseIn _ _ _ rfl⟩

/-- Settles O28: RET from level k + 1 reads entry k and writes SP and PC, and at level 0 it raises. -/
theorem retPopsTheReturnAddress : Obligations.RetPopsTheReturnAddress := by
  refine ⟨decodeOfEncode .ret rfl, fun s k hk => ?_, fun s h0 => ?_⟩
  · refine ⟨_, exec_ret_of_sp hk, toNat_sub_one_of_level hk, rfl, fun h => State.fetch_setPC_eq_none _ h, ?_⟩
    exact ((s.changesOnly_setSP _).mem (by simp)).trans ((State.changesOnly_setPC _ _).mem (by simp))
  · exact ⟨_, exec_ret_of_zero h0, s.entersFault_raiseIn _ _ _ rfl⟩

/-- Settles O32: RET pops the entry that the CALL pushed, and SP goes up and down by one. -/
theorem retUndoesCall : Obligations.RetUndoesCall := by
  intro nnn s k hk
  refine ⟨_, exec_call_of_sp nnn hk, fun u hsp hentry => ?_⟩
  have hsp' : u.sp = s.sp + 1#16 := hsp
  have hlevel : u.sp.toNat = k.val + 1 := hsp' ▸ toNat_add_one_of_level hk
  refine ⟨_, exec_ret_of_sp hlevel, ?_, ?_⟩
  · exact hentry.trans (s.getElem_setStack_self k s.pc)
  · rw [State.setPC_sp, State.setSP_sp, hsp', BitVec.add_sub_cancel]

/-! ### The skips on register values (R105 to R108) -/

/-- An instruction that ends in `skipIf` skips exactly when the tested condition holds. -/
theorem skipsWhen_of_skipIf {i : Instr} {s : State} {b : Bool} {c : Prop} (hexec : exec i s = .next (s.skipIf b))
    (hc : b = true ↔ c) : skipsWhen i s c := by
  refine ⟨_, hexec, fun h => ?_, fun h => ?_, ?_⟩
  · rw [State.skipIf_pc, if_pos (hc.2 h)]
  · rw [State.skipIf_pc, if_neg (mt hc.1 h)]
  · rw [State.skipIf_eq]
    exact s.changesOnly_setPC _

theorem beq_iff_toNat_eq {a b : Byte} : (a == b) = true ↔ a.toNat = b.toNat :=
  beq_iff_eq.trans BitVec.toNat_inj.symm

theorem bne_iff_toNat_ne {a b : Byte} : (a != b) = true ↔ a.toNat ≠ b.toNat :=
  bne_iff_ne.trans BitVec.toNat_ne_iff_ne.symm

/-- Settles O33: all four end in `skipIf` of a comparison of two bytes. -/
theorem registerSkips : Obligations.RegisterSkips :=
  ⟨fun x kk => ⟨decodeOfEncode (.seByte x kk) rfl, decodeOfEncode (.sneByte x kk) rfl⟩,
    fun x y => ⟨decodeOfEncode (.seReg x y) rfl, decodeOfEncode (.sneReg x y) rfl⟩,
    fun _ _ _ => ⟨skipsWhen_of_skipIf rfl beq_iff_toNat_eq, skipsWhen_of_skipIf rfl bne_iff_toNat_ne⟩,
    fun _ _ _ => ⟨skipsWhen_of_skipIf rfl beq_iff_toNat_eq, skipsWhen_of_skipIf rfl bne_iff_toNat_ne⟩⟩

end Sys2Proof.Machine

/-! ## Loads and ALU (42_load_alu R120 to R133) -/

namespace Sys2Proof.Machine

open Claims

/-! ### The words of family 8 -/

/-- The obligations write the words of family 8 as 800n + 256·x + 16·y, with n first. -/
theorem decode_word_family8 {i : Instr} {x y : Reg} {n : Nat} (henc : encode i = formatXYN 8 x y n)
    (hwf : i.wf = true) : decode (word (0x8000 + n + 256 * x + 16 * y)) = .ok i := by
  have hword : word (0x8000 + n + 256 * x + 16 * y) = formatXYN 8 x y n := congrArg word (by omega)
  rw [hword, ← henc]
  exact decodeOfEncode i hwf

/-! ### Bytes -/

theorem ofNat_mod_256_eq_trunc8 (n : Nat) : BitVec.ofNat 8 (n % 256) = trunc8 n :=
  BitVec.eq_of_toNat_eq (by rw [toNat_trunc8, BitVec.toNat_ofNat, Nat.mod_mod])

/-- The exact sum truncated is the sum modulo 256 (R126). -/
theorem trunc8_toNat_add (a b : Byte) : trunc8 (a.toNat + b.toNat) = a + b :=
  BitVec.eq_of_toNat_eq (by rw [toNat_trunc8, BitVec.toNat_add])

/-- The difference modulo 256, written without a negative number (R127). -/
theorem toNat_byte_sub (a b : Byte) : (a - b).toNat = (256 + a.toNat - b.toNat) % 256 := by
  have := b.isLt
  rw [BitVec.toNat_sub]
  omega

theorem toNat_carryFlag (a b : Byte) : (carryFlag a b).toNat = if a.toNat + b.toNat > 255 then 1 else 0 := by
  simp [carryFlag]

theorem toNat_notBorrowFlag (a b : Byte) : (notBorrowFlag a b).toNat = if a.toNat ≥ b.toNat then 1 else 0 := by
  simp [notBorrowFlag]

theorem toNat_shiftOutRight (a : Byte) : (shiftOutRight a).toNat = a.toNat % 2 := by
  rw [shiftOutRight, toNat_trunc8]
  omega

theorem toNat_shiftOutLeft (a : Byte) : (shiftOutLeft a).toNat = a.toNat / 128 := by
  have := a.isLt
  rw [shiftOutLeft, toNat_trunc8]
  omega

/-! ### Instructions that write V[x] alone (R120 to R125) -/

theorem State.getV_setV_self (s : State) (x : Reg) (b : Byte) : (s.setV x b).getV x = b := by
  rw [State.getV_setV, if_pos rfl]

theorem writesV_of_setV {i : Instr} {s : State} {x : Reg} {b : Byte} (hexec : exec i s = .next (s.setV x b)) :
    writesV i s x b := ⟨_, hexec, s.getV_setV_self x b, s.changesOnly_setV x b⟩

/-- Settles O34: all three end in one write of V[x]. -/
theorem loadsAndAddByte : Obligations.LoadsAndAddByte := by
  refine ⟨fun x kk => ⟨decodeOfEncode (.ldByte x kk) rfl, decodeOfEncode (.addByte x kk) rfl⟩,
    fun x y => decodeOfEncode (.ldReg x y) rfl, fun x y kk s => ⟨writesV_of_setV rfl, writesV_of_setV rfl, ?_⟩⟩
  rw [ofNat_mod_256_eq_trunc8]
  exact writesV_of_setV rfl

/-- Settles O35: all three end in one write of V[x], of the two bytes combined bit by bit. -/
theorem logicBitByBit : Obligations.LogicBitByBit :=
  ⟨fun _ _ => ⟨decode_word_family8 (n := 1) rfl rfl, decode_word_family8 (n := 2) rfl rfl,
      decode_word_family8 (n := 3) rfl rfl⟩,
    fun _ _ _ => ⟨_, _, _, writesV_of_setV rfl, writesV_of_setV rfl, writesV_of_setV rfl,
      fun _ _ => ⟨BitVec.getLsbD_or, BitVec.getLsbD_and, BitVec.getLsbD_xor⟩⟩⟩

/-! ### The flag, then the result (R126 to R130, R133) -/

theorem getV_flagThenResult_self (s : State) (x : Reg) (f r : Byte) : (flagThenResult s x f r).getV x = r :=
  State.getV_setV_self _ x r

theorem getV_flagThenResult_vf (s : State) {x : Reg} (f r : Byte) (hx : x ≠ 15) :
    (flagThenResult s x f r).getV 15 = f := by
  rw [flagThenResult, State.getV_setV, if_neg hx]
  exact s.getV_setV_self vf f

theorem changesOnly_flagThenResult (s : State) (x : Reg) (f r : Byte) :
    s.changesOnly (flagThenResult s x f r) (· ∈ [.v x, .v 15]) :=
  ((s.changesOnly_setV vf f).mem (by simp [vf])).trans ((State.changesOnly_setV _ x r).mem (by simp))

theorem getV_flagThenResult_of_ne (s : State) {x y : Reg} (f r : Byte) (hxy : x ≠ y) (hy : y ≠ 15) :
    (flagThenResult s x f r).getV y = s.getV y :=
  changesOnly_flagThenResult s x f r (.v y) (by simp [hxy.symm, hy])

theorem writesFlagThenV_of_flagThenResult {i : Instr} {s : State} {x : Reg} {f r : Byte} {flag result : Nat}
    (hexec : exec i s = .next (flagThenResult s x f r)) (hf : f.toNat = flag) (hr : r.toNat = result) :
    writesFlagThenV i s x flag result := by
  refine ⟨_, hexec, ?_, fun hx => ?_, changesOnly_flagThenResult s x f r⟩
  · rw [getV_flagThenResult_self, hr]
  · rw [getV_flagThenResult_vf s f r hx, hf]

/-! ### ADD, SUB and SUBN (R126, R127, R129) -/

theorem exec_addReg (x y : Reg) (s : State) : exec (.addReg x y) s =
    .next (flagThenResult s x (carryFlag (s.getV x) (s.getV y)) (s.getV x + s.getV y)) := by
  rw [← trunc8_toNat_add]
  rfl

theorem exec_subReg (x y : Reg) (s : State) : exec (.subReg x y) s =
    .next (flagThenResult s x (notBorrowFlag (s.getV x) (s.getV y)) (s.getV x - s.getV y)) := rfl

theorem exec_subnReg (x y : Reg) (s : State) : exec (.subnReg x y) s =
    .next (flagThenResult s x (notBorrowFlag (s.getV y) (s.getV x)) (s.getV y - s.getV x)) := rfl

/-- Settles O36: the carry and the sum of the two old operands. -/
theorem addWritesCarryThenSum : Obligations.AddWritesCarryThenSum :=
  ⟨fun _ _ => decode_word_family8 (n := 4) rfl rfl, fun x y s =>
    writesFlagThenV_of_flagThenResult (exec_addReg x y s) (toNat_carryFlag _ _) (BitVec.toNat_add _ _)⟩

/-- Settles O37: NOT borrow and the difference of the two old operands; V[y] is neither V[x] nor VF, so the ADD reads
the byte that SUB subtracted. -/
theorem subtractionsWriteNotBorrow : Obligations.SubtractionsWriteNotBorrow := by
  refine ⟨fun _ _ => ⟨decode_word_family8 (n := 5) rfl rfl, decode_word_family8 (n := 7) rfl rfl⟩,
    fun x y s => ⟨?_, ?_⟩, fun x y s hxy hy => ⟨_, _, exec_subReg x y s, exec_addReg x y _, ?_, ?_⟩⟩
  · exact writesFlagThenV_of_flagThenResult (exec_subReg x y s) (toNat_notBorrowFlag _ _) (toNat_byte_sub _ _)
  · exact writesFlagThenV_of_flagThenResult (exec_subnReg x y s) (toNat_notBorrowFlag _ _) (toNat_byte_sub _ _)
  · rw [getV_flagThenResult_self, getV_flagThenResult_self, getV_flagThenResult_of_ne _ _ _ hxy hy,
      BitVec.sub_add_cancel]
  · rw [getV_flagThenResult_of_ne _ _ _ hxy hy, getV_flagThenResult_of_ne _ _ _ hxy hy]

/-! ### SHR and SHL (R128, R130) -/

/-- The byte a shift shifts: V[x] read after VF was written, which with x = 15 is the flag (R133, D9). -/
theorem getV_setV_vf (s : State) (x : Reg) (f : Byte) :
    (s.setV vf f).getV x = if x = 15 then f else s.getV x := by
  simp only [State.getV_setV, vf, eq_comm]

/-- Half of what SHR reads: with x = 15 half of one bit, which is 0. -/
theorem toNat_shr_result (s : State) (x : Reg) :
    (trunc8 (((s.setV vf (shiftOutRight (s.getV x))).getV x).toNat / 2)).toNat =
      if x = 15 then 0 else (s.getV x).toNat / 2 := by
  have := (s.getV x).isLt
  rw [toNat_trunc8, getV_setV_vf]
  split
  · rw [toNat_shiftOutRight]
    omega
  · omega

/-- Twice what SHL reads: with x = 15 twice the bit shifted out. -/
theorem toNat_shl_result (s : State) (x : Reg) :
    (trunc8 (((s.setV vf (shiftOutLeft (s.getV x))).getV x).toNat * 2)).toNat =
      if x = 15 then 2 * ((s.getV x).toNat / 128) else (s.getV x).toNat * 2 % 256 := by
  have := (s.getV x).isLt
  rw [toNat_trunc8, getV_setV_vf]
  split
  · rw [toNat_shiftOutLeft]
    omega
  · rfl

/-- Settles O38: the bit shifted out of the old V[x], then the shift of V[x] as read after that write. -/
theorem shiftsWriteTheBitShiftedOut : Obligations.ShiftsWriteTheBitShiftedOut :=
  ⟨fun _ _ => ⟨decode_word_family8 (n := 6) rfl rfl, decode_word_family8 (n := 0xE) rfl rfl⟩, fun x _ s =>
    ⟨writesFlagThenV_of_flagThenResult rfl (toNat_shiftOutRight _) (toNat_shr_result s x),
      writesFlagThenV_of_flagThenResult rfl (toNat_shiftOutLeft _) (toNat_shl_result s x)⟩⟩

/-! ### RND (R131) -/

theorem exec_rnd (x : Reg) (kk : Byte) (s : State) : exec (.rnd x kk) s =
    .next ((s.setV x (Config.randomByte s.rndDraws &&& kk)).setDraws (s.rndDraws + 1)) := rfl

/-- Settles O39: RND writes V[x], the byte drawn and masked, and the count of draws. -/
theorem randomByteIsMasked : Obligations.RandomByteIsMasked := by
  refine ⟨fun x kk => decodeOfEncode (.rnd x kk) rfl, fun x kk s => ?_⟩
  have hV : ((s.setV x (Config.randomByte s.rndDraws &&& kk)).setDraws (s.rndDraws + 1)).getV x =
      Config.randomByte s.rndDraws &&& kk := by
    rw [State.getV_setDraws, State.getV_setV_self]
  refine ⟨_, _, exec_rnd x kk s, rfl, hV, fun j hj => ?_, rfl, ?_⟩
  · rw [hV, BitVec.getLsbD_and, hj, Bool.and_false]
  · exact ((s.changesOnly_setV x _).mem (by simp)).trans ((State.changesOnly_setDraws _ _).mem (by simp))

end Sys2Proof.Machine

/-! ## Index register and memory (43_index_memory R140 to R145) -/

namespace Sys2Proof.Machine

open Claims

/-! ### The words of family F -/

/-- The obligations write the words of family F as F0kk + 256·x, with kk first. -/
theorem encode_familyF {i : Instr} {x : Reg} {kk : Nat} (henc : encode i = formatX 0xF x kk) :
    encode i = word (0xF000 + kk + 256 * x) := henc.trans (congrArg word (by omega))

theorem decode_word_familyF {i : Instr} {x : Reg} {kk : Nat} (henc : encode i = formatX 0xF x kk)
    (hwf : i.wf = true) : decode (word (0xF000 + kk + 256 * x)) = .ok i := by
  rw [← encode_familyF henc]
  exact decodeOfEncode i hwf

/-- An instruction of family F that raises records its own word (60_exceptions R177). -/
theorem faultsWith_familyF {i : Instr} {s : State} {k : FaultKind} {x : Reg} {kk : Nat}
    (henc : encode i = formatX 0xF x kk) (hexec : exec i s = .next (s.raiseIn k i)) :
    faultsWith i s k (0xF000 + kk + 256 * x) := ⟨_, hexec, s.entersFault_raiseIn k i _ (encode_familyF henc)⟩

/-! ### LD I, ADD I and LD F (R140 to R142) -/

theorem exec_ldI (nnn : Addr12) (s : State) : exec (.ldI nnn) s = .next (s.setI (zext16 nnn)) := rfl

theorem exec_addIVx (x : Reg) (s : State) : exec (.addIVx x) s = .next (s.setI (s.i + zext16 (s.getV x))) := rfl

theorem exec_ldFVx (x : Reg) (s : State) : exec (.ldFVx x) s = .next (s.setI (glyphAddress (s.getV x))) := rfl

/-- The glyph address is the exact product, 1275 at the most (R142, D28). -/
theorem toNat_glyphAddress (b : Byte) : (glyphAddress b).toNat = b.toNat * 5 := by
  have := b.isLt
  rw [glyphAddress, toNat_trunc16, Config.glyphBytes]
  omega

/-- Settles O40: all three end in one write of I. -/
theorem indexRegisterWrites : Obligations.IndexRegisterWrites := by
  refine ⟨fun nnn => decodeOfEncode (.ldI nnn) rfl,
    fun x => ⟨decode_word_familyF (kk := 0x1E) rfl rfl, decode_word_familyF (kk := 0x29) rfl rfl⟩,
    fun nnn x s => ⟨?_, ?_, ?_⟩⟩
  · exact ⟨_, exec_ldI nnn s, toNat_zext16_addr nnn, s.changesOnly_setI _⟩
  · refine ⟨_, exec_addIVx x s, ?_, s.changesOnly_setI _⟩
    rw [State.setI_i, BitVec.toNat_add, toNat_zext16_byte]
  · exact ⟨_, exec_ldFVx x s, toNat_glyphAddress _, s.changesOnly_setI _⟩

/-! ### LD B (R143) -/

/-- The bytes the BCD encoder stores are the decimal digits of its operand (R143). -/
theorem bcdDigits_decimal (b : Byte) : ∃ h d o : Byte, bcdDigits b = [h, d, o] ∧
    100 * h.toNat + 10 * d.toNat + o.toNat = b.toNat ∧ h.toNat ≤ 2 ∧ d.toNat ≤ 9 ∧ o.toNat ≤ 9 := by
  have := b.isLt
  refine ⟨_, _, _, rfl, ?_⟩
  simp only [toNat_trunc8]
  omega

/-- LD B whose last digit has an address. -/
theorem exec_ldBVx_of_lt {s : State} {x : Reg} (hi : s.i.toNat + 2 < params.memSize) :
    exec (.ldBVx x) s = .next (s.setMem (s.mem.writeAll s.i.toNat (bcdDigits (s.getV x)))) := by
  have hb : inBounds s.i.toNat (bcdDigits (s.getV x)).length = true := inBounds_of_last_lt hi
  simp only [exec, execLdBVx, State.memWrite, if_pos hb]

/-- LD B whose last digit has none. -/
theorem exec_ldBVx_of_ge {s : State} {x : Reg} (hi : s.i.toNat + 2 ≥ params.memSize) :
    exec (.ldBVx x) s = .next (s.raiseIn .memoryOutOfBounds (.ldBVx x)) := by
  have hw : s.memWrite s.i.toNat (bcdDigits (s.getV x)) = none := State.memWrite_eq_none_iff.2 ⟨Nat.succ_pos 2, hi⟩
  simp only [exec, execLdBVx, hw]

/-- Settles O41: the three bytes written are the digits, and the bound is that of the last of them. -/
theorem bcdStoresTheDecimalDigits : Obligations.BcdStoresTheDecimalDigits := by
  refine ⟨fun x => decode_word_familyF (kk := 0x33) rfl rfl, fun x s hm hi => ?_,
    fun x s hi => faultsWith_familyF (kk := 0x33) rfl (exec_ldBVx_of_ge hi)⟩
  obtain ⟨h, d, o, hdigits, hvalue, hh, hd, ho⟩ := bcdDigits_decimal (s.getV x)
  have hb : inBounds s.i.toNat [h, d, o].length = true := inBounds_of_last_lt hi
  have hread (k : Nat) (hk : k < 3) : (s.mem.writeAll s.i.toNat [h, d, o]).read (s.i.toNat + k) = [h, d, o].getD k 0 :=
    Memory.read_writeAll_add hm hb hk
  refine ⟨_, h.toNat, d.toNat, o.toNat, exec_ldBVx_of_lt hi, ?_⟩
  rw [hdigits]
  refine ⟨congrArg _ (hread 0 (by decide)), congrArg _ (hread 1 (by decide)), congrArg _ (hread 2 (by decide)), hvalue,
    hh, hd, ho, (State.changesOnly_writeAll hm hb).mono ?_⟩
  rintro _ ⟨k, hk, rfl⟩
  have hk3 : k < 3 := hk
  interval_cases k <;> simp

/-! ### I after a dump or a load -/

/-- The post-increment of Fx55 and Fx65, modulo 65536 (R144, R145). -/
theorem toNat_bumpI_i (s : State) (x : Reg) : (bumpI s x).i.toNat = (s.i.toNat + x.val + 1) % 65536 := by
  rw [bumpI, State.setI_i, BitVec.toNat_add, toNat_trunc16]
  omega

theorem changesOnly_bumpI (s : State) (x : Reg) : s.changesOnly (bumpI s x) (· = .i) := s.changesOnly_setI _

@[simp] theorem getV_bumpI (s : State) (x k : Reg) : (bumpI s x).getV k = s.getV k := rfl

@[simp] theorem bumpI_mem (s : State) (x : Reg) : (bumpI s x).mem = s.mem := rfl

/-! ### The register dump (R144) -/

/-- A dump whose last byte has no address. -/
theorem exec_ldMemVx_of_ge {s : State} {x : Reg} (hx : s.i.toNat + x.val ≥ params.memSize) :
    exec (.ldMemVx x) s = .next (s.raiseIn .memoryOutOfBounds (.ldMemVx x)) := by
  have hw : s.memWrite s.i.toNat (s.regsUpTo x) = none := by
    rw [State.memWrite_eq_none_iff, State.length_regsUpTo]
    exact ⟨Nat.succ_pos _, hx⟩
  simp only [exec, execLdMemVx, hw]

/-- Settles O42: the registers are written at I as one list of x + 1 bytes, then I moves past them. -/
theorem registerDump : Obligations.RegisterDump := by
  refine ⟨fun x => decode_word_familyF (kk := 0x55) rfl rfl, fun x s hm hx => ?_,
    fun x s hx => faultsWith_familyF (kk := 0x55) rfl (exec_ldMemVx_of_ge hx)⟩
  refine ⟨_, exec_ldMemVx_of_lt hx, fun k hk => read_writeAll_regsUpTo hm hx hk, toNat_bumpI_i _ x, ?_⟩
  refine ((State.changesOnly_writeAll hm (inBounds_regsUpTo hx)).mono ?_).trans
    ((changesOnly_bumpI _ x).mono fun _ => Or.inl)
  rintro _ ⟨k, hk, rfl⟩
  rw [State.length_regsUpTo] at hk
  exact .inr ⟨⟨k, by omega⟩, Nat.le_of_lt_succ hk, rfl⟩

/-! ### The register load (R145) -/

/-- A load that fits fills the registers from I and moves I past the bytes. -/
theorem exec_ldVxMem_of_lt {s : State} {x : Reg} (hx : s.i.toNat + x.val < params.memSize) :
    exec (.ldVxMem x) s = .next (bumpI (s.loadRegs (s.mem.readAll s.i.toNat (x.val + 1))) x) := by
  have hb : inBounds s.i.toNat (x.val + 1) = true := inBounds_of_last_lt hx
  simp only [exec, execLdVxMem, State.memRead, if_pos hb]

/-- A load whose last byte has no address. -/
theorem exec_ldVxMem_of_ge {s : State} {x : Reg} (hx : s.i.toNat + x.val ≥ params.memSize) :
    exec (.ldVxMem x) s = .next (s.raiseIn .memoryOutOfBounds (.ldVxMem x)) := by
  have hr : s.memRead s.i.toNat (x.val + 1) = none := State.memRead_eq_none_iff.2 ⟨Nat.succ_pos _, hx⟩
  simp only [exec, execLdVxMem, hr]

/-- After a load of n bytes from a on, V[k] below n holds the byte at a + k (R145). -/
theorem getV_loadRegs_readAll (s : State) (m : Memory) {a n : Nat} {k : Reg} (hk : k.val < n) :
    (s.loadRegs (m.readAll a n)).getV k = m.read (a + k.val) := by
  rw [State.getV_loadRegs, Memory.getD_readAll, if_pos hk]

/-- Settles O43: the registers are filled from one list of x + 1 bytes at I, then I moves past them. -/
theorem registerLoad : Obligations.RegisterLoad := by
  refine ⟨fun x => decode_word_familyF (kk := 0x65) rfl rfl, fun x s hx => ?_,
    fun x s hx => faultsWith_familyF (kk := 0x65) rfl (exec_ldVxMem_of_ge hx)⟩
  refine ⟨_, exec_ldVxMem_of_lt hx, fun k hk => getV_loadRegs_readAll s s.mem (Nat.lt_succ_of_le hk),
    toNat_bumpI_i _ x, ?_⟩
  refine (s.changesOnly_loadRegs _ _ fun k hk => ?_).trans ((changesOnly_bumpI _ x).mono fun _ => Or.inl)
  rw [Memory.length_readAll] at hk
  exact .inr ⟨k, Nat.le_of_lt_succ hk, rfl⟩

/-! ### The dump, then the load (20_memory R60) -/

/-- Settles O44: the load reads the addresses the dump wrote, whatever the other parts of the state are. -/
theorem loadUndoesDump : Obligations.LoadUndoesDump := by
  intro x s hm hx
  refine ⟨_, exec_ldMemVx_of_lt hx, fun u hmem hi => ⟨_, exec_ldVxMem_of_lt (hi ▸ hx), fun k hk => ?_⟩⟩
  rw [getV_bumpI, getV_loadRegs_readAll u u.mem (Nat.lt_succ_of_le hk), hmem, hi, bumpI_mem, State.setMem_mem]
  exact read_writeAll_regsUpTo hm hx hk

end Sys2Proof.Machine

/-! ## The display (44_display R150 to R153) -/

namespace Sys2Proof.Machine

open Claims

/-! ### CLS (R150) -/

theorem exec_cls (s : State) : exec .cls s = .next (s.setFB FrameBuffer.clear) := rfl

/-- A buffer whose pixels are all off is the clear one. -/
theorem FrameBuffer.eq_clear {fb : FrameBuffer} (h : ∀ p, p < 2048 → fb.pixel p = false) : fb = FrameBuffer.clear :=
  FrameBuffer.ext_pixel fun p hp => (h p hp).trans (FrameBuffer.pixel_clear p).symm

/-- A change of the buffer changes no pixel but the 2048 of the display. -/
theorem State.changesOnly_setFB_pixels (s : State) (fb : FrameBuffer) :
    s.changesOnly (s.setFB fb) (fun c => ∃ p, p < 2048 ∧ c = .pixel p) := by
  refine s.changesOnly_setFB fb _ fun p hp => ?_
  have hge : 2048 ≤ p := Nat.le_of_not_lt fun hlt => hp ⟨p, hlt, rfl⟩
  rw [fb.pixel_of_ge hge, s.fb.pixel_of_ge hge]

/-- Settles O45: CLS writes the buffer alone, and with the clear buffer that a reset machine has. -/
theorem clsClearsTheDisplay : Obligations.ClsClearsTheDisplay := by
  refine ⟨decodeOfEncode .cls rfl, fun s => ⟨_, exec_cls s, FrameBuffer.pixel_clear, s.changesOnly_setFB_pixels _, rfl,
    fun hoff => ?_⟩⟩
  rw [← FrameBuffer.eq_clear hoff]
  rfl

/-! ### Targets of sprite pixels (R152) -/

/-- Up to column 63 the two values of `DRW_HWRAP` agree. -/
theorem target_nextRow_eq_sameRow {cx : Nat} (cy : Nat) (h : cx < 64) :
    target .nextRow cx cy = target .sameRow cx cy := by
  have hrow : 64 * cy + cx ≤ 2047 ↔ cy ≤ 31 := by omega
  simp only [target, hrow, Nat.mod_eq_of_lt h]

/-- Past row 31 a pixel is discarded (D5). -/
theorem target_of_row_ge (hw : HWrap) (cx : Nat) {cy : Nat} (h : 32 ≤ cy) : target hw cx cy = none := by
  cases hw <;> exact if_neg (by omega)

/-- Eight columns are fewer than a row has, so two pixels of one sprite never meet, wrapped or not. -/
theorem target_inj {hw : HWrap} {x0 y0 c c' r r' p : Nat} (hc : c < 8) (hc' : c' < 8)
    (h : target hw (x0 + c) (y0 + r) = some p) (h' : target hw (x0 + c') (y0 + r') = some p) : c = c' ∧ r = r' := by
  cases hw <;> simp only [target, Option.ite_none_right_eq_some, Option.some.injEq] at h h' <;> omega

/-! ### The points and the targets of a sprite (R151) -/

theorem mem_rowPoints {r c cy : Nat} {row : Byte} :
    (c, cy) ∈ rowPoints r row ↔ c < 8 ∧ spriteBit row c = true ∧ cy = r := by
  simp only [rowPoints, List.mem_map, List.mem_filter, List.mem_range, Prod.mk.injEq]
  constructor
  · rintro ⟨c', ⟨hc, hbit⟩, rfl, rfl⟩
    exact ⟨hc, hbit, rfl⟩
  · rintro ⟨hc, hbit, rfl⟩
    exact ⟨c, ⟨hc, hbit⟩, rfl, rfl⟩

theorem nodup_rowPoints (r : Nat) (row : Byte) : (rowPoints r row).Nodup :=
  (List.nodup_range.filter _).map fun _ _ h => congrArg Prod.fst h

/-- The points are the set bits: column c of the k-th row. -/
theorem mem_spritePoints {r c cy : Nat} {rows : List Byte} : (c, cy) ∈ spritePoints r rows ↔
    ∃ k row, rows[k]? = some row ∧ c < 8 ∧ spriteBit row c = true ∧ cy = r + k := by
  induction rows generalizing r with
  | nil => simp [spritePoints]
  | cons row rows ih =>
    have hshift : ∀ k, r + 1 + k = r + (k + 1) := fun k => by omega
    rw [spritePoints, List.mem_append, mem_rowPoints, ih]
    conv_rhs => rw [← Nat.or_exists_add_one]
    simp [hshift]

/-- The rows from r on have no point above row r. -/
theorem row_le_of_mem_spritePoints {r : Nat} {rows : List Byte} {q : Nat × Nat} (h : q ∈ spritePoints r rows) :
    r ≤ q.2 := by
  obtain ⟨k, -, -, -, -, hq⟩ := mem_spritePoints.1 h
  omega

theorem nodup_spritePoints (r : Nat) (rows : List Byte) : (spritePoints r rows).Nodup := by
  induction rows generalizing r with
  | nil => exact List.nodup_nil
  | cons row rows ih =>
    refine (nodup_rowPoints r row).append (ih (r + 1)) fun q hq hq' => ?_
    obtain ⟨-, -, hrow⟩ := mem_rowPoints.1 hq
    have hbelow := row_le_of_mem_spritePoints hq'
    omega

/-- No pixel is touched twice in one draw, which is why the scan is an XOR with a mask (R152, R153). -/
theorem nodup_blitTargets (hw : HWrap) (x0 y0 : Nat) (rows : List Byte) : (blitTargets hw x0 y0 rows).Nodup := by
  refine List.pairwise_filterMap.2 ((nodup_spritePoints 0 rows).imp_of_mem ?_)
  rintro ⟨c, r⟩ ⟨c', r'⟩ hq hq' hne p hp _ hp' rfl
  obtain ⟨-, -, -, hc, -⟩ := mem_spritePoints.1 hq
  obtain ⟨-, -, -, hc', -⟩ := mem_spritePoints.1 hq'
  obtain ⟨rfl, rfl⟩ := target_inj hc hc' hp hp'
  exact hne rfl

theorem lt_of_mem_blitTargets {hw : HWrap} {x0 y0 p : Nat} {rows : List Byte} (h : p ∈ blitTargets hw x0 y0 rows) :
    p < 2048 := by
  obtain ⟨_, -, hp⟩ := List.mem_filterMap.1 h
  exact target_lt hp

/-- Settles O46: the columns of a sprite are closer together than the wrap, so its targets are distinct. -/
theorem targetsOfSpritePixels : Obligations.TargetsOfSpritePixels :=
  ⟨rfl, fun _ _ => ⟨rfl, rfl⟩, fun _ cy h => target_nextRow_eq_sameRow cy h, fun hw cx _ h => target_of_row_ge hw cx h,
    fun _ _ _ _ h => target_lt h, fun hw x0 y0 rows _ _ => nodup_blitTargets hw x0 y0 rows⟩

/-! ### DRW (R151, R153) -/

theorem Memory.getElem?_readAll (m : Memory) (a n k : Nat) :
    (m.readAll a n)[k]? = if k < n then some (m.read (a + k)) else none := by
  rw [Memory.readAll_eq_map, List.getElem?_map]
  split
  next hk => rw [List.getElem?_range hk]; rfl
  next hk => rw [List.getElem?_eq_none (by simpa using hk)]; rfl

/-- The pixels Dxyn touches at s. -/
def drawTargets (hw : HWrap) (x y : Reg) (n : Fin 16) (s : State) : List Nat :=
  blitTargets hw ((s.getV x).toNat % 64) ((s.getV y).toNat % 32) (s.mem.readAll s.i.toNat n.val)

/-- The buffer and the collision after Dxyn at s. -/
def drawBlit (hw : HWrap) (x y : Reg) (n : Fin 16) (s : State) : FrameBuffer × Bool :=
  blit hw ((s.getV x).toNat % 64) ((s.getV y).toNat % 32) (s.mem.readAll s.i.toNat n.val) s.fb

/-- A draw XORs the touched pixels into the buffer, and collides when one of them was on (R153). -/
theorem drawBlit_xors (hw : HWrap) (x y : Reg) (n : Fin 16) (s : State) :
    (∀ p, (drawBlit hw x y n s).1.pixel p = (s.fb.pixel p != decide (p ∈ drawTargets hw x y n s))) ∧
      (drawBlit hw x y n s).2 = (drawTargets hw x y n s).any s.fb.pixel :=
  foldl_xorPixel _ (nodup_blitTargets _ _ _ _) (fun _ => lt_of_mem_blitTargets) s.fb false

section Draw

variable {hw : HWrap} {x y : Reg} {n : Fin 16} {s : State}

/-- The sprite mask is the set of touched pixels. -/
theorem mem_drawTargets {p : Nat} : p ∈ drawTargets hw x y n s ↔ spriteCovers hw x y n s p := by
  simp only [drawTargets, blitTargets, List.mem_filterMap, Prod.exists, mem_spritePoints, Memory.getElem?_readAll,
    Option.ite_none_right_eq_some, Option.some.injEq, Nat.zero_add]
  constructor
  · rintro ⟨c, r, ⟨_, _, ⟨hr, rfl⟩, hc, hbit, rfl⟩, hp⟩
    exact ⟨r, hr, c, hc, hbit, hp⟩
  · rintro ⟨r, hr, c, hc, hbit, hp⟩
    exact ⟨c, r, ⟨r, _, ⟨hr, rfl⟩, hc, hbit, rfl⟩, hp⟩

theorem collision_drawBlit :
    (drawBlit hw x y n s).2 = true ↔ ∃ p, spriteCovers hw x y n s p ∧ s.fb.pixel p = true := by
  obtain ⟨-, hflag⟩ := drawBlit_xors hw x y n s
  rw [hflag, List.any_eq_true]
  exact exists_congr fun p => and_congr_left' mem_drawTargets

theorem inBounds_iff_spriteInBounds : inBounds s.i.toNat n.val = true ↔ spriteInBounds n s := by
  rw [inBounds, Bool.or_eq_true, beq_iff_eq, decide_eq_true_eq]
  rfl

/-- A draw whose sprite bytes exist. -/
theorem drawSprite_of_spriteInBounds (h : spriteInBounds n s) : drawSprite hw x y n s =
    .next ((s.setFB (drawBlit hw x y n s).1).setV vf (flag (drawBlit hw x y n s).2)) := by
  simp only [drawSprite, State.memRead, if_pos (inBounds_iff_spriteInBounds.2 h), drawBlit]

/-- A draw that needs a byte past memory. -/
theorem drawSprite_of_not_spriteInBounds (h : ¬ spriteInBounds n s) :
    drawSprite hw x y n s = .next (s.raiseIn .memoryOutOfBounds (.drw x y n)) := by
  simp only [drawSprite, State.memRead, if_neg (mt inBounds_iff_spriteInBounds.1 h)]

/-- A draw whose sprite bytes exist XORs the mask into the buffer. -/
theorem drawSprite_xorsMask (hw : HWrap) (x y : Reg) (h : spriteInBounds n s) :
    ∃ t, drawSprite hw x y n s = .next t ∧ xorsMask hw x y n s t := by
  obtain ⟨hpixel, -⟩ := drawBlit_xors hw x y n s
  refine ⟨_, drawSprite_of_spriteInBounds h, fun p hp => ?_, fun hmeet => ?_, fun hmiss => ?_, ?_⟩
  · rw [State.setV_fb, State.setFB_fb, hpixel, decide_eq_true (mem_drawTargets.2 hp), Bool.bne_true]
  · rw [collision_drawBlit.2 hmeet]
    exact State.getV_setV_self _ _ _
  · rw [Bool.eq_false_of_not_eq_true (mt collision_drawBlit.1 hmiss)]
    exact State.getV_setV_self _ _ _
  · refine (s.changesOnly_setFB _ _ fun p hp => ?_).trans ((State.changesOnly_setV _ _ _).mono fun _ => .inl)
    have hout : p ∉ drawTargets hw x y n s := fun hmem => hp (.inr ⟨p, mem_drawTargets.1 hmem, rfl⟩)
    rw [hpixel, decide_eq_false hout, Bool.bne_false]

end Draw

/-- The obligation writes the word of DRW as D000 + 256·x + 16·y + n. -/
theorem encode_drw (x y n : Fin 16) : encode (.drw x y n) = word (0xD000 + 256 * x + 16 * y + n) := rfl

/-- Settles O47: the scan touches distinct pixels, so it is an XOR with the mask, and the bound is that of the last
byte. -/
theorem drwXorsTheSpriteMask : Obligations.DrwXorsTheSpriteMask :=
  ⟨fun x y n => decodeOfEncode (.drw x y n) rfl, fun x y _ _ h => drawSprite_xorsMask _ x y h,
    fun hw x y _ _ h => drawSprite_xorsMask hw x y h,
    fun x y n s h => ⟨_, drawSprite_of_not_spriteInBounds h, s.entersFault_raiseIn _ _ _ (encode_drw x y n)⟩⟩

end Sys2Proof.Machine

/-! ### What a draw of a sprite leaves for the next one (R153) -/

namespace Sys2Proof.Claims.xorsMask

open Machine

variable {hw : HWrap} {x y : Reg} {n : Fin 16} {s t : State}

theorem pixel_of_covers {p : Nat} (h : xorsMask hw x y n s t) (hp : spriteCovers hw x y n s p) :
    t.fb.pixel p = !s.fb.pixel p := by
  obtain ⟨hflip, -⟩ := h
  exact hflip p hp

theorem pixel_of_not_covers {p : Nat} (h : xorsMask hw x y n s t) (hp : ¬ spriteCovers hw x y n s p) :
    t.fb.pixel p = s.fb.pixel p := by
  obtain ⟨-, -, -, hframe⟩ := h
  refine hframe (.pixel p) ?_
  rintro (hv | ⟨q, hq, heq⟩)
  · cases hv
  · cases heq
    exact hp hq

/-- VF after a draw is 1 exactly on a collision. -/
theorem vf_eq_one_iff (h : xorsMask hw x y n s t) :
    t.getV 15 = 1#8 ↔ ∃ p, spriteCovers hw x y n s p ∧ s.fb.pixel p = true := by
  obtain ⟨-, hmeet, hmiss, -⟩ := h
  refine ⟨fun hone => ?_, hmeet⟩
  by_contra hno
  rw [hmiss hno] at hone
  cases hone

/-- A draw keeps every component but VF and the pixels. -/
theorem agree {c : Comp} (h : xorsMask hw x y n s t) (hv : c ≠ .v 15) (hp : ∀ p, c ≠ .pixel p) :
    s.agree t c := by
  obtain ⟨-, -, -, hframe⟩ := h
  exact hframe c fun hc => hc.elim hv fun ⟨p, _, heq⟩ => hp p heq

theorem spriteInBounds_iff (h : xorsMask hw x y n s t) : spriteInBounds n t ↔ spriteInBounds n s := by
  have hi : t.i = s.i := h.agree (c := .i) nofun nofun
  simp only [spriteInBounds, hi]

/-- Drawn again at registers other than VF, the sprite covers the same pixels. -/
theorem spriteCovers_iff (h : xorsMask hw x y n s t) (hx : x ≠ 15) (hy : y ≠ 15) (p : Nat) :
    spriteCovers hw x y n t p ↔ spriteCovers hw x y n s p := by
  have hi : t.i = s.i := h.agree (c := .i) nofun nofun
  have hmem (a : Nat) : t.mem.read a = s.mem.read a := h.agree (c := .mem a) nofun nofun
  have hreg (z : Reg) (hz : z ≠ 15) : t.getV z = s.getV z :=
    h.agree (c := .v z) (fun heq => hz (Comp.v.inj heq)) nofun
  simp only [spriteCovers, hi, hmem, hreg x hx, hreg y hy]

/-- Two XORs with one mask restore the buffer (R153). -/
theorem fb_of_twice {u : State} (h : xorsMask hw x y n s t) (h' : xorsMask hw x y n t u)
    (hcov : ∀ p, spriteCovers hw x y n t p ↔ spriteCovers hw x y n s p) : u.fb = s.fb := by
  refine FrameBuffer.ext_pixel fun p _ => ?_
  by_cases hp : spriteCovers hw x y n s p
  · rw [h'.pixel_of_covers ((hcov p).2 hp), h.pixel_of_covers hp, Bool.not_not]
  · rw [h'.pixel_of_not_covers (mt (hcov p).1 hp), h.pixel_of_not_covers hp]

end Sys2Proof.Claims.xorsMask

namespace Sys2Proof.Machine

/-- Settles O48: the first draw moves neither the sprite nor its position, so the second XORs the same mask. -/
theorem drawingTwiceRestoresTheScreen : Obligations.DrawingTwiceRestoresTheScreen := by
  intro hw x y n s hx hy hs
  obtain ⟨t, hdraw, h⟩ := drawSprite_xorsMask hw x y hs
  obtain ⟨u, hdraw', h'⟩ := drawSprite_xorsMask hw x y (h.spriteInBounds_iff.2 hs)
  have hcov := h.spriteCovers_iff hx hy
  refine ⟨t, u, hdraw, hdraw', h.fb_of_twice h' hcov, ?_⟩
  rw [h'.vf_eq_one_iff]
  exact exists_congr fun p => and_congr_left' (hcov p)

end Sys2Proof.Machine

/-! ## Keys and timers (45_keys_timers R160 to R165) -/

namespace Sys2Proof.Machine

open Claims

/-! ### LD Vx, K (R163) -/

/-- The latch is empty exactly when no key is down, which is the test of Fx0A. -/
theorem State.keys_eq_zero_iff {s : State} : s.keys = 0#16 ↔ ∀ k, s.keyDown k = false := by
  constructor
  · intro h k
    rw [State.keyDown, h, BitVec.getLsbD_zero]
  · exact fun h => BitVec.eq_of_getLsbD_eq fun i hi => (h ⟨i, hi⟩).trans BitVec.getLsbD_zero.symm

/-- `KEY_SELECT` of a latch with a key down is the lowest such key (D17). -/
theorem lowestKey_eq_of_lowest {s : State} {k : Key} (hk : s.keyDown k = true)
    (hlow : ∀ j, j < k → s.keyDown j = false) : lowestKey s.keys = k := by
  have hfind : (List.finRange 16).find? s.keyDown = some k := by
    refine List.find?_eq_some_iff_getElem.2 ⟨hk, k.val, by simp, by simp, fun j hj => ?_⟩
    simpa using hlow ⟨j, hj.trans k.isLt⟩ hj
  exact congrArg (Option.getD · 0) hfind

theorem exec_ldVxK_of_no_key {s : State} (x : Reg) (h : ∀ k, s.keyDown k = false) :
    exec (.ldVxK x) s = .next s.rewind := congrArg Host.Outcome.next (if_pos (State.keys_eq_zero_iff.2 h))

theorem exec_ldVxK_of_lowest {s : State} (x : Reg) {k : Key} (hk : s.keyDown k = true)
    (hlow : ∀ j, j < k → s.keyDown j = false) : exec (.ldVxK x) s = .next (s.setV x (trunc8 k.val)) := by
  have hkeys : s.keys ≠ 0#16 := fun h => Bool.false_ne_true ((State.keys_eq_zero_iff.1 h k).symm.trans hk)
  have hwait : waitKey lowestKey x s = s.setV x (trunc8 k.val) := by
    rw [waitKey, if_neg hkeys, lowestKey_eq_of_lowest hk hlow]
  exact congrArg Host.Outcome.next hwait

/-- The stall of Fx0A undoes the pre-increment. -/
theorem State.rewind_advance (s : State) : s.advance.rewind = s := congrArg s.setPC (advance_back s.pc)

/-- Settles O51: the stall takes back the pre-increment of the Step, and the selected key is the lowest one down. -/
theorem waitForKeyStallsOrReportsTheLowest : Obligations.WaitForKeyStallsOrReportsTheLowest := by
  refine ⟨fun x => decode_word_familyF (kk := 0x0A) rfl rfl, fun x s hno => ?_, fun x s hrun hno hf => ?_,
    fun x s k hk hlow => writesV_of_setV (exec_ldVxK_of_lowest x hk hlow)⟩
  · exact ⟨_, exec_ldVxK_of_no_key x hno, rfl, s.changesOnly_setPC _, rfl⟩
  · have hd : decodesTo s (.ldVxK x) := ⟨_, hf, decode_word_familyF (kk := 0x0A) rfl rfl⟩
    have hno' : ∀ k, s.advance.keyDown k = false := hno
    rw [step_of_decodesTo hrun hd, exec_ldVxK_of_no_key x hno', s.rewind_advance]

/-! ### SKP and SKNP (R160, R161) -/

/-- The obligation writes the words of family E as E0kk + 256·x, with kk first. -/
theorem decode_word_familyE {i : Instr} {x : Reg} {kk : Nat} (henc : encode i = formatX 0xE x kk)
    (hwf : i.wf = true) : decode (word (0xE000 + kk + 256 * x)) = .ok i := by
  have hword : encode i = word (0xE000 + kk + 256 * x) := henc.trans (congrArg word (by omega))
  rw [← hword]
  exact decodeOfEncode i hwf

theorem exec_skp (x : Reg) (s : State) : exec (.skp x) s = .next (s.skipIf (s.keyDown (keyOf (s.getV x)))) := rfl

theorem exec_sknp (x : Reg) (s : State) : exec (.sknp x) s = .next (s.skipIf (!s.keyDown (keyOf (s.getV x)))) := rfl

/-- Settles O49: both end in `skipIf` of the latch bit of key k, or of its negation. -/
theorem keySkips : Obligations.KeySkips := by
  refine ⟨fun x => ⟨decode_word_familyE (kk := 0x9E) rfl rfl, decode_word_familyE (kk := 0xA1) rfl rfl⟩,
    fun x k s hk => ?_⟩
  obtain rfl : keyOf (s.getV x) = k := Fin.ext hk
  exact ⟨skipsWhen_of_skipIf (exec_skp x s) Iff.rfl, skipsWhen_of_skipIf (exec_sknp x s) (Bool.not_eq_true' _).to_iff⟩

/-! ### The timer moves (R162, R164, R165) -/

theorem exec_ldVxDT (x : Reg) (s : State) : exec (.ldVxDT x) s = .next (s.setV x s.dt) := rfl

theorem exec_ldDTVx (x : Reg) (s : State) : exec (.ldDTVx x) s = .next (s.setDT (s.getV x)) := rfl

theorem exec_ldSTVx (x : Reg) (s : State) : exec (.ldSTVx x) s = .next (s.setST (s.getV x)) := rfl

theorem State.soundActive_iff {s : State} : s.soundActive = true ↔ s.st ≠ 0#8 := bne_iff_ne

/-- Settles O50: each move is one write, and the decrement of the Step comes after it. -/
theorem timerMoves : Obligations.TimerMoves := by
  refine ⟨fun x => ⟨decode_word_familyF (kk := 0x07) rfl rfl, decode_word_familyF (kk := 0x15) rfl rfl,
      decode_word_familyF (kk := 0x18) rfl rfl⟩,
    fun x s => ⟨writesV_of_setV (exec_ldVxDT x s), ⟨_, exec_ldDTVx x s, rfl, s.changesOnly_setDT _⟩,
      ⟨_, exec_ldSTVx x s, rfl, State.soundActive_iff, s.changesOnly_setST _⟩, fun hrun => ⟨?_, ?_, ?_⟩⟩⟩
  · obtain ⟨hdt, -, hframe⟩ := State.tick_lowers_timers (s := s.setV x s.dt) hrun
    have hx : (s.setV x s.dt).tick.getV x = (s.setV x s.dt).getV x := hframe (.v x) (by simp)
    exact ⟨_, rfl, hx.trans (s.getV_setV_self x s.dt), hdt⟩
  · obtain ⟨hdt, -, -⟩ := State.tick_lowers_timers (s := s.setDT (s.getV x)) hrun
    exact ⟨_, rfl, hdt⟩
  · obtain ⟨-, hst, -⟩ := State.tick_lowers_timers (s := s.setST (s.getV x)) hrun
    exact ⟨_, rfl, hst⟩

end Sys2Proof.Machine

/-! ## Faults, ticks and key events (60_exceptions R170 to R185) -/

namespace Sys2Proof.Machine

/-! ### Every cause is followed by its fault (R170 to R174) -/

/-- An instruction that accesses a byte past memory raises, whichever of the four it is (R174). -/
theorem exec_of_span_past_memory {i : Instr} {s : State} (hpos : span i > 0)
    (hout : s.i.toNat + span i - 1 ≥ params.memSize) : exec i s = .next (s.raiseIn .memoryOutOfBounds i) := by
  cases i with
  | ldBVx x => exact exec_ldBVx_of_ge hout
  | ldMemVx x => exact exec_ldMemVx_of_ge hout
  | ldVxMem x => exact exec_ldVxMem_of_ge hout
  | drw x y n => exact drawSprite_of_not_spriteInBounds (not_or.2 ⟨Nat.ne_of_gt hpos, Nat.not_lt.2 hout⟩)
  | _ => exact absurd hpos (Nat.lt_irrefl 0)

/-- The converse of `exec_run_cases`: an instruction raises the fault whose cause holds before it. -/
theorem exec_of_cause {op : Word} {i : Instr} {s : State} {k : FaultKind} (hd : decode op = .ok i)
    (hc : k.cause s (some op)) : exec i s = .next (s.raiseIn k i) := by
  have hinstr {j : Instr} (hj : decode op = .ok j) : i = j := Except.ok.inj (hd.symm.trans hj)
  cases k with
  | unknownOpcode =>
    obtain ⟨e, he⟩ := hc
    cases hd.symm.trans he
  | stackOverflow =>
    obtain ⟨nnn, hcall, hfull⟩ := hc
    rw [hinstr hcall]
    exact exec_call_of_full nnn (Nat.not_lt.2 hfull)
  | stackUnderflow =>
    obtain ⟨hret, h0⟩ := hc
    rw [hinstr hret]
    exact exec_ret_of_zero h0
  | memoryOutOfBounds =>
    obtain ⟨j, hj, hpos, hout⟩ := hc
    rw [hinstr hj]
    exact exec_of_span_past_memory hpos hout

/-- Where no word was fetched, the fetch fault is the one with a cause (R174). -/
theorem FaultKind.eq_memoryOutOfBounds_of_cause {k : FaultKind} {s : State} (hc : k.cause s none) :
    k = .memoryOutOfBounds := by
  cases k with
  | memoryOutOfBounds => rfl
  | _ => exact hc.elim

/-- An illegal word is the cause of UnknownOpcode alone (R171). -/
theorem FaultKind.eq_unknownOpcode_of_cause {k : FaultKind} {s : State} {op : Word} {e : DecodeError}
    (hd : decode op = .error e) (hc : k.cause s (some op)) : k = .unknownOpcode := by
  cases k with
  | unknownOpcode => rfl
  | _ => simp [FaultKind.cause, hd] at hc

/-- The converse of `raise_of_step_faulted`: a running machine raises the fault whose cause holds before the Step. -/
theorem step_of_cause {s : State} {k : FaultKind} (hrun : s.run = .running) (hc : k.cause s s.fetch) :
    step s = .next (s.raise k s.pc s.fetch) := by
  cases hf : s.fetch with
  | none =>
    rw [hf] at hc
    obtain rfl := FaultKind.eq_memoryOutOfBounds_of_cause hc
    exact step_of_no_fetch hrun hf
  | some op =>
    rw [hf] at hc
    cases hd : decode op with
    | error e =>
      obtain rfl := FaultKind.eq_unknownOpcode_of_cause hd hc
      exact step_of_illegal hrun hf hd
    | ok i =>
      have hc' : k.cause s.advance (some op) :=
        (k.cause_congr (s := s) (t := s.advance) (some op) rfl rfl nofun).2 hc
      rw [step_of_decode hrun hf hd, exec_of_cause hd hc', s.raiseIn_advance, encode_of_decode hd]

/-- Settles O13: a Step that faults is a raise whose cause held, and a cause that holds makes the Step that raise. -/
theorem faultsExactlyForTheirCauses : Obligations.FaultsExactlyForTheirCauses := by
  refine ⟨fun k => by cases k <;> decide, fun s t k hrun h => ⟨?_, fun hc => ?_⟩⟩
  · rintro ⟨addr, w, ht⟩
    obtain ⟨-, hc⟩ := raise_of_step_faulted hrun h ht
    exact hc
  · cases h.symm.trans (step_of_cause hrun hc)
    exact ⟨rfl, s.changesOnly_raise_pc k s.fetch⟩

/-! ### The Tick (R182) -/

/-- Settles O22: the event Tick and the end of a Step are one operation, which lowers the timers of a running machine
and leaves a stopped one as it is. -/
theorem tickDecrementsBothTimers : Obligations.TickDecrementsBothTimers := by
  refine fun s => ⟨fun hrun => ?_, fun hstop => congrArg Host.Outcome.next (s.tick_of_stopped hstop)⟩
  obtain ⟨hdt, hst, hframe⟩ := State.tick_lowers_timers hrun
  exact ⟨s.tick, rfl, hdt, hst, hframe, rfl⟩

/-! ### Key events (R185) -/

namespace State

theorem keyDown_keySet_self (s : State) (k : Key) : (s.keySet k).keyDown k = true := by
  simp [keySet, keyDown]

theorem keyDown_keyClear_self (s : State) (k : Key) : (s.keyClear k).keyDown k = false := by
  simp [keyClear, keyDown]

/-- A latch that differs at key k at most, and does not differ there, is the latch of s. -/
theorem setKeys_eq_self {s : State} {ks : BitVec 16} {k : Key} (hframe : s.changesOnly (s.setKeys ks) (· = .key k))
    (hk : (s.setKeys ks).keyDown k = s.keyDown k) : s.setKeys ks = s := by
  have hall (j : Key) : (s.setKeys ks).keyDown j = s.keyDown j := by
    by_cases hjk : j = k
    · rw [hjk, hk]
    · exact hframe (.key j) fun heq => hjk (Comp.key.inj heq)
  have hks : ks = s.keys := BitVec.eq_of_getLsbD_eq fun j hj => hall ⟨j, hj⟩
  rw [hks]
  rfl

theorem keySet_of_keyDown {s : State} {k : Key} (h : s.keyDown k = true) : s.keySet k = s :=
  setKeys_eq_self (s.changesOnly_keySet k) ((s.keyDown_keySet_self k).trans h.symm)

theorem keyClear_of_not_keyDown {s : State} {k : Key} (h : s.keyDown k = false) : s.keyClear k = s :=
  setKeys_eq_self (s.changesOnly_keyClear k) ((s.keyDown_keyClear_self k).trans h.symm)

/-- A release undoes the press of a key that was not down. -/
theorem keyClear_keySet {s : State} {k : Key} (h : s.keyDown k = false) : (s.keySet k).keyClear k = s :=
  setKeys_eq_self ((s.changesOnly_keySet k).trans ((s.keySet k).changesOnly_keyClear k))
    (((s.keySet k).keyDown_keyClear_self k).trans h.symm)

end State

/-- Settles O23: each event writes bit k of the latch alone, so a bit that ends as it was is no change. -/
theorem keyEventsWriteOneLatchBit : Obligations.KeyEventsWriteOneLatchBit := fun s k =>
  ⟨⟨_, rfl, s.keyDown_keySet_self k, s.changesOnly_keySet k, State.keySet_of_keyDown⟩,
    ⟨_, rfl, s.keyDown_keyClear_self k, s.changesOnly_keyClear k, State.keyClear_of_not_keyDown⟩,
    fun h => congrArg Host.Outcome.next (State.keyClear_keySet h)⟩

end Sys2Proof.Machine

/-! ## Reset and LoadROM (70_reset_and_hazards R200 to R202) -/

namespace Sys2Proof.Machine

/-! ### LoadROM (R201, R202) -/

/-- A ROM of at most `ROM_MAX` bytes ends below `MEM_SIZE` (00_scope R6). -/
theorem inBounds_progBase {n : Nat} (h : n ≤ romMax) : inBounds Config.progBase n = true := by
  rw [inBounds_iff]
  simp only [romMax, Config.progBase] at h ⊢
  omega

namespace State

/-- Key events leave memory as Reset does, so it still lists nothing. -/
theorem memWf_of_justReset {s : State} (h : s.justReset = true) : s.mem.wf := by
  have hs : s = (State.reset.setDraws s.rndDraws).setKeys s.keys := beq_iff_eq.1 h
  rw [hs]
  exact Memory.reset_wf

theorem loadRom_of_justReset {s : State} {bytes : List Byte} (hlen : bytes.length ≤ romMax)
    (h : s.justReset = true) : s.loadRom bytes = .next (s.withRom bytes) := by
  rw [loadRom, if_neg (Nat.not_lt.2 hlen), if_pos h]

theorem loadRom_of_not_justReset {s : State} {bytes : List Byte} (hlen : bytes.length ≤ romMax)
    (h : s.justReset = false) : s.loadRom bytes = .refused .loadRomNotAfterReset := by
  rw [loadRom, if_neg (Nat.not_lt.2 hlen), if_neg (ne_true_of_eq_false h)]

theorem loadRom_of_romMax_lt (s : State) {bytes : List Byte} (hlen : romMax < bytes.length) :
    s.loadRom bytes = .refused .romTooLarge := if_pos hlen

end State

/-- Settles O21: an accepted ROM is one write of bytes that fits below `MEM_SIZE` in the memory Reset left; the two
refusals are the other branches of LoadROM. -/
theorem loadRomImage : Obligations.LoadRomImage := by
  refine ⟨fun s bytes hreset hlen => ?_, fun s bytes hlen => s.loadRom_of_romMax_lt hlen,
    fun s bytes hlen hrun => State.loadRom_of_not_justReset hlen hrun⟩
  have hm := State.memWf_of_justReset hreset
  have hb := inBounds_progBase hlen
  exact ⟨s.withRom bytes, State.loadRom_of_justReset hlen hreset, fun k hk => Memory.read_writeAll_add hm hb hk,
    State.changesOnly_writeAll hm hb⟩

/-! ### Reset (R200, R201) -/

/-- The font lies at 0 to 79 (R201). -/
theorem resetByte_of_lt {a : Nat} (h : a < 80) : resetByte a = params.font.getD a 0#8 :=
  if_pos ⟨Nat.zero_le a, h⟩

/-- Past the font memory is zero (R201). -/
theorem resetByte_of_ge {a : Nat} (h : 80 ≤ a) : resetByte a = 0#8 :=
  if_neg fun ⟨_, hlt⟩ => Nat.not_lt.2 h hlt

namespace State

theorem getV_reset (x : Reg) : State.reset.getV x = 0#8 := Vector.getElem_replicate x.isLt

theorem stack_reset (k : Fin 16) : State.reset.stack[k.val] = 0#16 := Vector.getElem_replicate k.isLt

theorem pixel_reset (p : Nat) : State.reset.fb.pixel p = false := FrameBuffer.pixel_clear p

theorem keyDown_reset (k : Key) : State.reset.keyDown k = false := keys_eq_zero_iff.1 rfl k

end State

/-- Settles O20: after Reset every component the spec gives the machine is that of `State.reset`, and its memory lists
nothing, so it reads as the reset contents. -/
theorem resetState : Obligations.ResetState :=
  ⟨fun s => ⟨s.restart, rfl, State.getV_reset, rfl, rfl, State.stack_reset, rfl, rfl, State.pixel_reset,
    State.keyDown_reset, fun _ => resetByte_of_lt, fun _ => resetByte_of_ge, rfl, rfl⟩, rfl⟩

end Sys2Proof.Machine
